-- ==== Sys2Proof/Word.lean ====
section
/-! DEFINITION. The word and byte types of the machine (00_scope.md R5, R11). -/

namespace Sys2Proof

/-- A 32-bit value: a register, the PC, an address or a memory word (00_scope.md R5, R11). -/
abbrev Word := BitVec 32

/-- The addressable unit (00_scope.md R5). -/
abbrev Byte := BitVec 8

/-- A general register number, 0 to 31 (10_state.md R20, 30_encoding.md R121). -/
abbrev RegIdx := BitVec 5

end Sys2Proof
end

