-- ==== Sys2Proof/Machine/Flags.lean ====
section
/-! DEFINITION. There are no flags (10_state.md R31): the two comparisons of the machine deliver their result in a general
register (SLT) or decide a branch (BEQ, BNE). -/

namespace Sys2Proof.Machine

/-- `signed(a) < signed(b)` as the word 1 or 0 (41_arithmetic.md R162; the result values and the operand order are log 19). -/
def signedLessWord (a b : Word) : Word := if a.toInt < b.toInt then 1#32 else 0#32

/-- The branch comparison: equality of all 32 bits, no signedness (43_control_transfer.md R181, R182). -/
def wordsEqual (a b : Word) : Bool := decide (a = b)

end Sys2Proof.Machine
end

