-- ==== Sys2Proof/Syntax.lean ====
section
/-! DEFINITION. The instructions, one constructor for each row of spec/opcode_table.json in the table's order, and the
codec's descriptor (30_encoding.md R111, R117). -/

namespace Sys2Proof

/-- One decoded instruction. The immediate of an I-format row is the 32-bit value the decoder has already sign-extended
(30_encoding.md R111, R120); `shamt` is carried and used by nothing (R121). -/
inductive Instr where
  /-- 41_arithmetic.md R160. -/
  | add (rs rt rd : RegIdx) (shamt : BitVec 5)
  /-- 41_arithmetic.md R161. -/
  | sub (rs rt rd : RegIdx) (shamt : BitVec 5)
  /-- 41_arithmetic.md R162. -/
  | slt (rs rt rd : RegIdx) (shamt : BitVec 5)
  /-- 43_control_transfer.md R184. -/
  | j (target : BitVec 26)
  /-- 43_control_transfer.md R185. -/
  | jal (target : BitVec 26)
  /-- 43_control_transfer.md R181. -/
  | beq (rs rt : RegIdx) (imm : Word)
  /-- 43_control_transfer.md R182. -/
  | bne (rs rt : RegIdx) (imm : Word)
  /-- 41_arithmetic.md R163. -/
  | addi (rs rt : RegIdx) (imm : Word)
  /-- 42_load_store.md R171. -/
  | lw (rs rt : RegIdx) (imm : Word)
  /-- 42_load_store.md R172. -/
  | sw (rs rt : RegIdx) (imm : Word)
  /-- 44_system.md R191. -/
  | cachectl
  /-- 44_system.md R190. -/
  | halt
  deriving DecidableEq, Repr

/-- What the InstructionCodec returns: the closed tagged variant of 30_encoding.md R111. -/
inductive Descriptor where
  | rType (opcode : BitVec 6) (rs rt rd : RegIdx) (shamt : BitVec 5) (funct : BitVec 6)
  | iType (opcode : BitVec 6) (rs rt : RegIdx) (immediate : Word)
  | jType (opcode : BitVec 6) (target : BitVec 26)
  | halt
  | cacheCtl
  deriving DecidableEq, Repr

end Sys2Proof
end

