-- ==== Sys2Proof/WellFormed.lean ====
section
/-! DEFINITION. Which instructions the encoding can carry: the encoder is defined when an immediate is the sign extension
of its low sixteen bits (30_encoding.md R125). -/

namespace Sys2Proof

/-- The immediate is `sext_32` of its own low half, that is, in `-32768` to `32767` (30_encoding.md R120, R125). -/
abbrev ImmFits (imm : Word) : Prop := imm = (imm.extractLsb' 0 16).signExtend 32

/-- The instructions that have an encoding. Every register number, `shamt` and `target26` is legal (30_encoding.md R121),
so only the immediates are checked. -/
def Instr.WellFormed : Instr → Bool
  | .add _ _ _ _ => true
  | .sub _ _ _ _ => true
  | .slt _ _ _ _ => true
  | .j _ => true
  | .jal _ => true
  | .beq _ _ imm => decide (ImmFits imm)
  | .bne _ _ imm => decide (ImmFits imm)
  | .addi _ _ imm => decide (ImmFits imm)
  | .lw _ _ imm => decide (ImmFits imm)
  | .sw _ _ imm => decide (ImmFits imm)
  | .cachectl => true
  | .halt => true

end Sys2Proof
end

