-- ==== Sys2Proof/Decode.lean ====
section
/-! DEFINITION. The InstructionCodec (30_encoding.md): bit fields, byte order, the opcode table, the decoder, the encoder,
and label resolution. -/

namespace Sys2Proof

/-- `BE32(b0, b1, b2, b3)`: the word whose bytes lie at rising addresses, most significant first (20_memory.md R53). -/
def be32 (b0 b1 b2 b3 : Byte) : Word := b0 ++ b1 ++ b2 ++ b3

/-- The `k`-th of `Bytes(v)`, `k` from 0: byte 0 is `bits[31:24]` (20_memory.md R53). -/
def wordByte (v : Word) (k : Nat) : Byte := v.extractLsb' (24 - 8 * k) 8

/-- `sext_32` (00_scope.md R11, 30_encoding.md R120). -/
def sext32 (v : BitVec 16) : Word := v.signExtend 32

/-- `opcode = bits[31:26]` (30_encoding.md R113). -/
def opcodeOf (w : Word) : BitVec 6 := w.extractLsb' 26 6
/-- `rs = bits[25:21]` (30_encoding.md R113). -/
def rsOf (w : Word) : RegIdx := w.extractLsb' 21 5
/-- `rt = bits[20:16]` (30_encoding.md R113). -/
def rtOf (w : Word) : RegIdx := w.extractLsb' 16 5
/-- `rd = bits[15:11]` (30_encoding.md R113). -/
def rdOf (w : Word) : RegIdx := w.extractLsb' 11 5
/-- `shamt = bits[10:6]` (30_encoding.md R113). -/
def shamtOf (w : Word) : BitVec 5 := w.extractLsb' 6 5
/-- `funct = bits[5:0]` (30_encoding.md R113). -/
def functOf (w : Word) : BitVec 6 := w.extractLsb' 0 6
/-- `sext_32(imm16)` with `imm16 = bits[15:0]` (30_encoding.md R114). -/
def immOf (w : Word) : Word := sext32 (w.extractLsb' 0 16)
/-- `target26 = bits[25:0]` (30_encoding.md R115). -/
def targetOf (w : Word) : BitVec 26 := w.extractLsb' 0 26

/-- Why the decoder rejects: the verdict `DecodeError` (30_encoding.md R110, R122), by cause. -/
inductive DecodeError where
  /-- The opcode is none of the ten of Table OP (R122). -/
  | badOpcode (opcode : BitVec 6)
  /-- The opcode is 0 and the funct is none of the three of R118. -/
  | badFunct (funct : BitVec 6)
  /-- Fewer than the four bytes of an instruction (R112); it arises for byte lists only, never in a step. -/
  | truncated
  deriving DecidableEq, Repr

/-- The rows under `opcode = 0` (30_encoding.md R118). -/
def decodeRType (w : Word) : Except DecodeError Instr :=
  if functOf w = 0x20#6 then .ok (.add (rsOf w) (rtOf w) (rdOf w) (shamtOf w))
  else if functOf w = 0x22#6 then .ok (.sub (rsOf w) (rtOf w) (rdOf w) (shamtOf w))
  else if functOf w = 0x2A#6 then .ok (.slt (rsOf w) (rtOf w) (rdOf w) (shamtOf w))
  else .error (.badFunct (functOf w))

/-- `Decode(w)`, total on all words (30_encoding.md R110, R117, R119), with the instruction that 40_step_cycle.md Table X
dispatches the descriptor to. -/
def decode (w : Word) : Except DecodeError Instr :=
  if opcodeOf w = 0x00#6 then decodeRType w
  else if opcodeOf w = 0x02#6 then .ok (.j (targetOf w))
  else if opcodeOf w = 0x03#6 then .ok (.jal (targetOf w))
  else if opcodeOf w = 0x04#6 then .ok (.beq (rsOf w) (rtOf w) (immOf w))
  else if opcodeOf w = 0x05#6 then .ok (.bne (rsOf w) (rtOf w) (immOf w))
  else if opcodeOf w = 0x08#6 then .ok (.addi (rsOf w) (rtOf w) (immOf w))
  else if opcodeOf w = 0x23#6 then .ok (.lw (rsOf w) (rtOf w) (immOf w))
  else if opcodeOf w = 0x2B#6 then .ok (.sw (rsOf w) (rtOf w) (immOf w))
  else if opcodeOf w = 0x3E#6 then .ok .cachectl
  else if opcodeOf w = 0x3F#6 then .ok .halt
  else .error (.badOpcode (opcodeOf w))

/-- Decoding the bytes at rising addresses: one instruction and the rest (30_encoding.md R112, 20_memory.md R53). -/
def decodeBytes : List Byte → Except DecodeError (Instr × List Byte)
  | b0 :: b1 :: b2 :: b3 :: rest =>
    match decode (be32 b0 b1 b2 b3) with
    | .ok i => .ok (i, rest)
    | .error e => .error e
  | [] => .error .truncated
  | [_] => .error .truncated
  | [_, _] => .error .truncated
  | [_, _, _] => .error .truncated

/-- The codec's own algorithm, line for line: the word to a descriptor (30_encoding.md R119). -/
def decodeDescriptor (w : Word) : Except DecodeError Descriptor :=
  if opcodeOf w = 0x00#6 then
    if functOf w ∈ [0x20#6, 0x22#6, 0x2A#6] then
      .ok (.rType (opcodeOf w) (rsOf w) (rtOf w) (rdOf w) (shamtOf w) (functOf w))
    else .error (.badFunct (functOf w))
  else if opcodeOf w ∈ [0x02#6, 0x03#6] then .ok (.jType (opcodeOf w) (targetOf w))
  else if opcodeOf w ∈ [0x04#6, 0x05#6, 0x08#6, 0x23#6, 0x2B#6] then
    .ok (.iType (opcodeOf w) (rsOf w) (rtOf w) (immOf w))
  else if opcodeOf w = 0x3E#6 then .ok .cacheCtl
  else if opcodeOf w = 0x3F#6 then .ok .halt
  else .error (.badOpcode (opcodeOf w))

/-- The descriptor of an instruction: 40_step_cycle.md Table X read from right to left. -/
def Instr.descriptor : Instr → Descriptor
  | .add rs rt rd shamt => .rType 0x00#6 rs rt rd shamt 0x20#6
  | .sub rs rt rd shamt => .rType 0x00#6 rs rt rd shamt 0x22#6
  | .slt rs rt rd shamt => .rType 0x00#6 rs rt rd shamt 0x2A#6
  | .j target => .jType 0x02#6 target
  | .jal target => .jType 0x03#6 target
  | .beq rs rt imm => .iType 0x04#6 rs rt imm
  | .bne rs rt imm => .iType 0x05#6 rs rt imm
  | .addi rs rt imm => .iType 0x08#6 rs rt imm
  | .lw rs rt imm => .iType 0x23#6 rs rt imm
  | .sw rs rt imm => .iType 0x2B#6 rs rt imm
  | .cachectl => .cacheCtl
  | .halt => .halt

/-- `Encode` of an R-format instruction: Table F-R with `opcode = 0` (30_encoding.md R113, R125). -/
def encodeR (rs rt rd : RegIdx) (shamt : BitVec 5) (funct : BitVec 6) : Word :=
  0x00#6 ++ rs ++ rt ++ rd ++ shamt ++ funct

/-- `Encode` of an I-format instruction: Table F-I (30_encoding.md R114, R125). -/
def encodeI (opcode : BitVec 6) (rs rt : RegIdx) (imm : Word) : Word :=
  opcode ++ rs ++ rt ++ imm.extractLsb' 0 16

/-- `Encode` of a J-format instruction: Table F-J (30_encoding.md R115, R125). -/
def encodeJ (opcode : BitVec 6) (target : BitVec 26) : Word := opcode ++ target

/-- The encoder; the don't-care bits of the special rows are 0 (30_encoding.md R125). -/
def encode : Instr → Word
  | .add rs rt rd shamt => encodeR rs rt rd shamt 0x20#6
  | .sub rs rt rd shamt => encodeR rs rt rd shamt 0x22#6
  | .slt rs rt rd shamt => encodeR rs rt rd shamt 0x2A#6
  | .j target => encodeJ 0x02#6 target
  | .jal target => encodeJ 0x03#6 target
  | .beq rs rt imm => encodeI 0x04#6 rs rt imm
  | .bne rs rt imm => encodeI 0x05#6 rs rt imm
  | .addi rs rt imm => encodeI 0x08#6 rs rt imm
  | .lw rs rt imm => encodeI 0x23#6 rs rt imm
  | .sw rs rt imm => encodeI 0x2B#6 rs rt imm
  | .cachectl => 0xF8000000#32
  | .halt => 0xFC000000#32

/-- The mnemonic of an instruction, as Table OP writes it (30_encoding.md R117). -/
def Instr.mnemonic : Instr → String
  | .add _ _ _ _ => "ADD"
  | .sub _ _ _ _ => "SUB"
  | .slt _ _ _ _ => "SLT"
  | .j _ => "J"
  | .jal _ => "JAL"
  | .beq _ _ _ => "BEQ"
  | .bne _ _ _ => "BNE"
  | .addi _ _ _ => "ADDI"
  | .lw _ _ _ => "LW"
  | .sw _ _ _ => "SW"
  | .cachectl => "CACHECTL"
  | .halt => "HALT"

/-- One row of Table OP: a word is the row's instruction exactly when `w & mask = pattern` (30_encoding.md R117). -/
structure OpcodeRow where
  mnemonic : String
  pattern : Word
  mask : Word
  deriving DecidableEq, Repr

/-- `w & mask = pattern` (30_encoding.md R117). -/
abbrev OpcodeRow.Matches (r : OpcodeRow) (w : Word) : Prop := w &&& r.mask = r.pattern

/-- Table OP, twelve rows (30_encoding.md R117). -/
def opcodeTable : List OpcodeRow :=
  [⟨"ADD", 0x00000020#32, 0xFC00003F#32⟩, ⟨"SUB", 0x00000022#32, 0xFC00003F#32⟩, ⟨"SLT", 0x0000002A#32, 0xFC00003F#32⟩] ++
  [⟨"J", 0x08000000#32, 0xFC000000#32⟩, ⟨"JAL", 0x0C000000#32, 0xFC000000#32⟩] ++
  [⟨"BEQ", 0x10000000#32, 0xFC000000#32⟩, ⟨"BNE", 0x14000000#32, 0xFC000000#32⟩, ⟨"ADDI", 0x20000000#32, 0xFC000000#32⟩] ++
  [⟨"LW", 0x8C000000#32, 0xFC000000#32⟩, ⟨"SW", 0xAC000000#32, 0xFC000000#32⟩] ++
  [⟨"CACHECTL", 0xF8000000#32, 0xFC000000#32⟩, ⟨"HALT", 0xFC000000#32, 0xFC000000#32⟩]

/-- The word a table row's number stands for: `nbits` bits, every bit above them 0 (bit 0 the least significant). -/
def tableWord (nbits w : Nat) : Word := BitVec.ofNat 32 (w % 2 ^ nbits)

/-- The instruction the decoder reads from the word laid out in memory order (20_memory.md R53, 30_encoding.md R112). -/
def decodeTableWord (nbits w : Nat) : Option Instr :=
  let v := tableWord nbits w
  match decodeBytes [wordByte v 0, wordByte v 1, wordByte v 2, wordByte v 3] with
  | .ok (i, _) => some i
  | .error _ => none

/-- Label resolution of BEQ and BNE at `a` for the label address `l`: the sign-extended immediate, where the displacement
is a multiple of 4 and its quotient fits sixteen signed bits (30_encoding.md R132). -/
def branchImmFor (a l : Word) : Option Word :=
  let d : Int := (l.toNat : Int) - ((a.toNat : Int) + 4)
  if d % 4 = 0 ∧ -32768 ≤ d / 4 ∧ d / 4 ≤ 32767 then some (BitVec.ofInt 32 (d / 4)) else none

/-- Label resolution of J and JAL at `a` for the label address `l` (30_encoding.md R132). -/
def jumpTargetFor (a l : Word) : Option (BitVec 26) :=
  if l.toNat % 4 = 0 ∧ l.extractLsb' 28 4 = a.extractLsb' 28 4 then some (l.extractLsb' 2 26) else none

end Sys2Proof
end

