-- ==== Sys2Proof/Config.lean ====
section
/-! DEFINITION. The configuration of a machine: the parameters the spec leaves open (00_scope.md R6, R7, R8), when they are
legal, what follows from them, and the register numbers of the named registers. -/

namespace Sys2Proof

/-- The parameters of one machine, fixed for its life (00_scope.md Table P, 10_state.md R45). -/
structure Config where
  /-- `MEMORY_SIZE`: bytes of the byte memory (R6). -/
  memorySize : Nat
  /-- `IO_BASE`: the lowest I/O address (R6). -/
  ioBase : Nat
  /-- `CACHE_SIZE`: bytes of cache data (R7). -/
  cacheSize : Nat
  /-- `LINE_SIZE`: bytes of one cache line (R7). -/
  lineSize : Nat
  /-- `INPUT_VALUE`: the word the host seeds the input register with (R8). -/
  inputValue : Word
  /-- `CACHE_ENABLED_AT_RESET` (R8, D5). -/
  cacheEnabledAtReset : Bool
  /-- `HALT_ADVANCES_PC`: whether HALT runs the PC-update phase (R8, D9). -/
  haltAdvancesPc : Bool
  deriving DecidableEq, Repr

namespace Config

/-- `NUM_LINES` (00_scope.md R7). -/
def numLines (c : Config) : Nat := c.cacheSize / c.lineSize

/-- `OFFSET_BITS` (00_scope.md R7). -/
def offsetBits (c : Config) : Nat := c.lineSize.log2

/-- `INDEX_BITS` (00_scope.md R7). -/
def indexBits (c : Config) : Nat := c.numLines.log2

/-- `TAG_BITS` (00_scope.md R7). -/
def tagBits (c : Config) : Nat := 32 - c.offsetBits - c.indexBits

/-- The cache geometries the spec calls legal: powers of two, a word fits a line, a line fits the cache, at least one tag
bit (00_scope.md R7). -/
abbrev GeometryLegal (c : Config) : Prop :=
  c.lineSize = 2 ^ c.lineSize.log2 ∧ 4 ≤ c.lineSize ∧ c.cacheSize = 2 ^ c.cacheSize.log2 ∧
    c.lineSize ≤ c.cacheSize ∧ c.cacheSize ≤ 2 ^ 31

/-- The address maps the spec calls legal (00_scope.md R6). -/
abbrev MapLegal (c : Config) : Prop :=
  0 < c.memorySize ∧ c.memorySize % 4 = 0 ∧ c.memorySize % c.lineSize = 0 ∧ c.memorySize ≤ c.ioBase ∧
    c.ioBase % 4 = 0 ∧ c.ioBase + 12 ≤ 2 ^ 32

/-- A configuration a machine can be built with; any other is a `ConfigurationError` (00_scope.md R6, R7;
60_exceptions.md R204). -/
abbrev Legal (c : Config) : Prop := c.GeometryLegal ∧ c.MapLegal

/-- The configuration of the machine after reset in this model: the values 95_test_vectors.md fixes for its own use, with
the spec's two switches at their defaults. DESIGN CHOICE, unsafe (log 1): the spec leaves the five values open. -/
def standard : Config where
  memorySize := 0x00010000
  ioBase := 0xFFFF0000
  cacheSize := 1024
  lineSize := 32
  inputValue := 0
  cacheEnabledAtReset := true
  haltAdvancesPc := false

end Config

/-- `$sp`, the register that resets to `0x7FFFFFFF`. PRESUMED, unsafe (log 2): the MIPS o32 number (10_state.md R22). -/
def spIdx : RegIdx := 29#5

end Sys2Proof
end

