-- ==== Sys2Proof/Machine/State.lean ====
section
/-! DEFINITION. The machine state as plain data (10_state.md R45), the reasons a step can stop, and the state after reset
(10_state.md R41, R42; 70_reset_and_hazards.md R231). -/

namespace Sys2Proof.Machine

/-- The run state of the CPU; HALTED is terminal (10_state.md R29). -/
inductive RunState where
  | running
  | halted
  deriving DecidableEq, Repr

/-- The four error kinds (60_exceptions.md R200). -/
inductive ErrorKind where
  | decodeError
  | addressError
  | configurationError
  | ioAddressError
  deriving DecidableEq, Repr

/-- The fault record `{kind, pc, addr}`; the message text is not state (10_state.md R30, 60_exceptions.md R206). -/
structure FaultRecord where
  kind : ErrorKind
  pc : Word
  addr : Word
  deriving DecidableEq, Repr

/-- The three registered I/O registers, at `IO_BASE`, `IO_BASE+4`, `IO_BASE+8` (60_exceptions.md R215). -/
inductive IoReg where
  | input
  | output
  | status
  deriving DecidableEq, Repr

/-- The I/O register map: its domain is fixed, so only the three values are state (10_state.md R35). -/
structure IoMap where
  input : Word
  output : Word
  status : Word
  deriving DecidableEq, Repr

/-- One cache line; the unused field `last_touched` is left out (10_state.md R37, 20_memory.md R82; log 5). -/
structure CacheLine where
  valid : Bool
  tag : Word
  data : List Byte
  deriving DecidableEq, Repr

/-- The byte memory as a sparse list of (address, byte) cells; an address that is not listed holds 0 (10_state.md R34,
R41; log 3). `Memory.wf` in Machine/Ops.lean is its canonical form. -/
abbrev Memory := List Host.Cell

/-- The complete machine state under its configuration (10_state.md R45). -/
structure State where
  /-- The configuration, fixed for the life of the machine (R45; log 1). -/
  cfg : Config
  /-- `x[0..31]` (R20). -/
  regs : Vector Word 32
  /-- The program counter (R25). -/
  pc : Word
  /-- The pending-target latch (R28). -/
  next : Option Word
  /-- RUNNING or HALTED (R29). -/
  run : RunState
  /-- The fault record (R30). -/
  fault : Option FaultRecord
  /-- The byte memory (R34). -/
  mem : Memory
  /-- The I/O register map (R35). -/
  io : IoMap
  /-- Bus counters (R36). -/
  memReads : Nat
  memWrites : Nat
  ioReads : Nat
  ioWrites : Nat
  /-- `lines[0..NUM_LINES-1]` (R37). -/
  lines : List CacheLine
  /-- `cache.enabled` (R38). -/
  cacheEnabled : Bool
  /-- Cache counters (R39). -/
  hits : Nat
  misses : Nat
  /-- Every word written to the output register, oldest first (R40). -/
  outLog : List Word
  /-- The last word written to the status register (R40). -/
  completion : Option Word
  deriving DecidableEq, Repr

/-- Why the model answers a fault in place of a state. The faults a program causes are NOT these: the spec describes their
entry, so they are next states with `run = halted` and `fault` set (60_exceptions.md R205; log 7). -/
inductive Fault where
  /-- `ConfigurationError`, raised by machine build for an illegal configuration, never by a step: no machine exists
  afterwards (60_exceptions.md R204). Safe: nothing runs. -/
  | configurationError
  deriving DecidableEq, Repr

/-- Why the model refuses. -/
inductive Refusal where
  /-- Answered by an arm of `exec` whose instruction has no meaning yet; there is none in this model. Safe. -/
  | notModelled (mnemonic : String)
  deriving DecidableEq, Repr

/-- An invalid line as machine build leaves it: `tag` and `data` are unspecified and never read while invalid, so they are
zeros here. DESIGN CHOICE, safe (log 4; 10_state.md R41, 93_implementation_defined.md U7). -/
def CacheLine.initial (lineSize : Nat) : CacheLine :=
  { valid := false, tag := 0#32, data := List.replicate lineSize 0#8 }

/-- The registers after CPU reset: all 0 but `$sp` (10_state.md R42; that `$sp` is register 29 is log 2). -/
def resetRegs : Vector Word 32 :=
  (Vector.replicate 32 0#32).set spIdx.toNat 0x7FFFFFFF#32 (by decide)

/-- The state machine build leaves for a legal configuration (10_state.md R41, R42; 70_reset_and_hazards.md R231). -/
def State.init (c : Config) : State where
  cfg := c
  regs := resetRegs
  pc := 0#32
  next := none
  run := .running
  fault := none
  mem := []
  io := { input := c.inputValue, output := 0#32, status := 0#32 }
  memReads := 0
  memWrites := 0
  ioReads := 0
  ioWrites := 0
  lines := List.replicate c.numLines (CacheLine.initial c.lineSize)
  cacheEnabled := c.cacheEnabledAtReset
  hits := 0
  misses := 0
  outLog := []
  completion := none

/-- The machine right after reset: machine build under the standard configuration (70_reset_and_hazards.md R231; log 1). -/
def State.reset : State := State.init Config.standard

end Sys2Proof.Machine
end

