-- ==== Sys2Proof/Machine/Ops.lean ====
section
/-! DEFINITION. The named operations over memory, registers and the step's own bookkeeping: the backing store, register
access, the pending-target latch, taking a fault, the way back from one, and the PC update. -/

namespace Sys2Proof.Machine

/-! ### The byte memory -/

/-- The byte at an address: what the list holds, or 0 (10_state.md R34, R41; log 3). -/
def Memory.read : Memory → Nat → Byte
  | [], _ => 0#8
  | (k, b) :: m, a => if k = a then b else Memory.read m a

/-- Setting the byte at an address, in canonical form: addresses stay strictly rising and no cell holds 0. -/
def Memory.write : Memory → Nat → Byte → Memory
  | [], a, b => if b = 0#8 then [] else [(a, b)]
  | (k, c) :: m, a, b =>
    if a < k then if b = 0#8 then (k, c) :: m else (a, b) :: (k, c) :: m
    else if a = k then if b = 0#8 then m else (a, b) :: m
    else (k, c) :: Memory.write m a b

/-- Every address of the list is at least `lo`, they rise strictly, and no cell holds the byte an unlisted address reads
as. -/
def Memory.wfFrom : Nat → Memory → Bool
  | _, [] => true
  | lo, (k, b) :: m => decide (lo ≤ k) && decide (b ≠ 0#8) && Memory.wfFrom (k + 1) m

/-- The canonical form, so that equal memories are equal lists. -/
def Memory.wf (m : Memory) : Bool := Memory.wfFrom 0 m

/-- `BackRead(a)`: the big-endian word at `a` (20_memory.md R53, R73). -/
def backRead (m : Memory) (a : Nat) : Word :=
  be32 (Memory.read m a) (Memory.read m (a + 1)) (Memory.read m (a + 2)) (Memory.read m (a + 3))

/-- `BackWrite(a, v)`: `mem[a..a+3] <- Bytes(v)` (20_memory.md R53, R73). -/
def backWrite (m : Memory) (a : Nat) (v : Word) : Memory :=
  Memory.write (Memory.write (Memory.write (Memory.write m a (wordByte v 0)) (a + 1) (wordByte v 1)) (a + 2) (wordByte v 2))
    (a + 3) (wordByte v 3)

/-- `BackBlock(base)`: the bytes of one block (20_memory.md R73). -/
def backBlock (m : Memory) (base n : Nat) : List Byte := (List.range n).map fun k => Memory.read m (base + k)

/-! ### Registers and the latch -/

/-- `x[i]`: register 0 reads 0 (10_state.md R20, R21). -/
def readReg (i : RegIdx) (s : State) : Word := if i = 0#5 then 0#32 else s.regs[i.toNat]'i.isLt

/-- `x[i] <- v`: a write to register 0 is discarded (10_state.md R21). With the discard the re-force of
40_step_cycle.md R147 changes nothing and is left out (log 21). -/
def writeReg (i : RegIdx) (v : Word) (s : State) : State :=
  if i = 0#5 then s else { s with regs := s.regs.set i.toNat v i.isLt }

/-- `next <- target` (10_state.md R28, 40_step_cycle.md R145). -/
def setNext (target : Word) (s : State) : State := { s with next := some target }

/-- `next <- none`, with which the execute phase begins (40_step_cycle.md R145, R149). -/
def beginExecute (s : State) : State := { s with next := none }

/-! ### Taking a fault, and the way back -/

/-- What an operation raises: the kind and the offending address (00_scope.md R12 `raise K(info)`). -/
structure Raised where
  kind : ErrorKind
  addr : Word
  deriving DecidableEq, Repr

/-- Fault entry: the CPU halts, the fault is recorded with the PC, the latch is cleared, and nothing else changes: `pc`
keeps the address of the faulting instruction (60_exceptions.md R205, R206; 40_step_cycle.md R148). -/
def takeFault (e : Raised) (s : State) : State :=
  { s with run := .halted, fault := some { kind := e.kind, pc := s.pc, addr := e.addr }, next := none }

/-- The decode phase's fault: `raise DecodeError(pc)` (40_step_cycle.md R143, 60_exceptions.md R201). -/
def takeDecodeFault (s : State) : State := takeFault { kind := .decodeError, addr := s.pc } s

/-- CPU reset, the only way out of HALTED: there is no return from a fault (60_exceptions.md R210). It sets what the CPU
owns and touches nothing the MemoryBus or the Cache owns (10_state.md R42, 70_reset_and_hazards.md R230). -/
def cpuReset (s : State) : State :=
  { s with regs := resetRegs, pc := 0#32, next := none, run := .running, fault := none }

/-- `run <- HALTED` without a fault: the transition HALT makes (44_system.md R190). -/
def enterHalted (s : State) : State := { s with run := .halted }

/-- A step of a HALTED CPU changes nothing (40_step_cycle.md R141; log 8). -/
def stepHalted (s : State) : Host.Outcome State Fault Refusal := .next s

/-! ### The PC update -/

/-- The PC the PC-update phase computes: the recorded target, or `(pc + 4) mod 2^32` (40_step_cycle.md R146). -/
def newPc (s : State) : Word :=
  match s.next with
  | some target => target
  | none => s.pc + 4#32

/-- Phase 4: a new PC at or above `MEMORY_SIZE` is an `AddressError` and `pc` is not written (40_step_cycle.md R146;
log 10). -/
def pcUpdate (s : State) : State :=
  if s.cfg.memorySize ≤ (newPc s).toNat then takeFault { kind := .addressError, addr := newPc s } s
  else { s with pc := newPc s, next := none }

end Sys2Proof.Machine
end

