-- ==== Sys2Proof/Machine/Operands.lean ====
section
/-! DEFINITION. The operand forms: the effective address of loads and stores, and the targets of branches and jumps. -/

namespace Sys2Proof.Machine

/-- `$ra`, the register JAL links in. PRESUMED, unsafe (log 2): the MIPS o32 number (10_state.md R22). -/
def raIdx : RegIdx := 31#5

/-- The one addressing mode: `EA = (x[rs] + immediate) mod 2^32` (42_load_store.md R170). -/
def effectiveAddress (rs : RegIdx) (imm : Word) (s : State) : Word := readReg rs s + imm

/-- `(pc + 4) mod 2^32`: the sequential successor and the link value (40_step_cycle.md R146, 43_control_transfer.md R185). -/
def nextSequential (pc : Word) : Word := pc + 4#32

/-- `BT = (pc + 4 + (immediate << 2)) mod 2^32` (43_control_transfer.md R180). -/
def branchTarget (pc imm : Word) : Word := pc + 4#32 + (imm <<< 2)

/-- `JT = (pc & 0xF0000000) | (target26 << 2)` (43_control_transfer.md R183). -/
def jumpTarget (pc : Word) (target : BitVec 26) : Word := (pc &&& 0xF0000000#32) ||| (target.setWidth 32 <<< 2)

end Sys2Proof.Machine
end

