-- ==== Sys2Proof/Machine/Arith.lean ====
section
/-! DEFINITION. Arithmetic and comparison: ADD, SUB, SLT, ADDI (41_arithmetic.md). A meaning is the execute phase followed
by the PC-update phase of 40_step_cycle.md R146, on the state the fetch leaves. -/

namespace Sys2Proof.Machine

/-- ADD: `x[rd] <- (x[rs] + x[rt]) mod 2^32` (R160). -/
def execAdd (rs rt rd : RegIdx) (s : State) : Host.Outcome State Fault Refusal :=
  .next (pcUpdate (writeReg rd (readReg rs s + readReg rt s) s))

/-- SUB: `x[rd] <- (x[rs] - x[rt]) mod 2^32` (R161; the operand order is log 19). -/
def execSub (rs rt rd : RegIdx) (s : State) : Host.Outcome State Fault Refusal :=
  .next (pcUpdate (writeReg rd (readReg rs s - readReg rt s) s))

/-- SLT: `x[rd] <- 1` when `signed(x[rs]) < signed(x[rt])`, else 0 (R162; log 19). -/
def execSlt (rs rt rd : RegIdx) (s : State) : Host.Outcome State Fault Refusal :=
  .next (pcUpdate (writeReg rd (signedLessWord (readReg rs s) (readReg rt s)) s))

/-- ADDI: `x[rt] <- (x[rs] + immediate) mod 2^32` (R163). -/
def execAddi (rs rt : RegIdx) (imm : Word) (s : State) : Host.Outcome State Fault Refusal :=
  .next (pcUpdate (writeReg rt (readReg rs s + imm) s))

end Sys2Proof.Machine
end

