-- ==== Sys2Proof/Machine/Control.lean ====
section
/-! DEFINITION. Control transfer: BEQ, BNE, J, JAL (43_control_transfer.md). They write the pending-target latch; the
PC-update phase reads it. -/

namespace Sys2Proof.Machine

/-- BEQ: taken when the two words are equal (R181). -/
def execBeq (rs rt : RegIdx) (imm : Word) (s : State) : Host.Outcome State Fault Refusal :=
  .next (pcUpdate (if wordsEqual (readReg rs s) (readReg rt s) = true then setNext (branchTarget s.pc imm) s else s))

/-- BNE: taken when the two words differ (R182). -/
def execBne (rs rt : RegIdx) (imm : Word) (s : State) : Host.Outcome State Fault Refusal :=
  .next (pcUpdate (if wordsEqual (readReg rs s) (readReg rt s) = true then s else setNext (branchTarget s.pc imm) s))

/-- J (R184). -/
def execJ (target : BitVec 26) (s : State) : Host.Outcome State Fault Refusal :=
  .next (pcUpdate (setNext (jumpTarget s.pc target) s))

/-- JAL: the link first, then as J; the link stays when the target faults (R185; log 10). -/
def execJal (target : BitVec 26) (s : State) : Host.Outcome State Fault Refusal :=
  .next (pcUpdate (setNext (jumpTarget s.pc target) (writeReg raIdx (nextSequential s.pc) s)))

end Sys2Proof.Machine
end

