-- ==== Sys2Proof/Machine/Cache.lean ====
section
/-! DEFINITION. The direct-mapped, write-through, write-no-allocate cache (20_memory.md R70 to R79). -/

namespace Sys2Proof.Machine

/-! ### The address split (20_memory.md R71) -/

/-- `offset = a mod LINE_SIZE`. -/
def cacheOffset (c : Config) (a : Word) : Nat := a.toNat % c.lineSize

/-- `index = (a >> OFFSET_BITS) mod NUM_LINES`. -/
def cacheIndex (c : Config) (a : Word) : Nat := (a.toNat >>> c.offsetBits) % c.numLines

/-- `tag = a >> (OFFSET_BITS + INDEX_BITS)`. -/
def cacheTag (c : Config) (a : Word) : Word := a >>> (c.offsetBits + c.indexBits)

/-- `base = a - offset`: the first address of the block. -/
def cacheBase (c : Config) (a : Word) : Nat := a.toNat - cacheOffset c a

/-- The first address of the block that a line of index `i` and this tag holds (20_memory.md R80). -/
def lineBase (c : Config) (tag : Word) (i : Nat) : Nat :=
  (tag.toNat <<< (c.offsetBits + c.indexBits)) ||| (i <<< c.offsetBits)

/-! ### Lines -/

/-- `lines[i]`. -/
def lineAt (s : State) (i : Nat) : CacheLine := s.lines.getD i (CacheLine.initial s.cfg.lineSize)

/-- The line an address maps to. -/
def lineOf (s : State) (a : Word) : CacheLine := lineAt s (cacheIndex s.cfg a)

/-- The address is resident: the line at its index is valid and holds its tag (20_memory.md R72). -/
abbrev Resident (s : State) (a : Word) : Prop := (lineOf s a).valid = true ∧ (lineOf s a).tag = cacheTag s.cfg a

/-- The word at an offset of a line, big-endian (20_memory.md R53, R74). -/
def lineWord (l : CacheLine) (off : Nat) : Word :=
  be32 (l.data.getD off 0#8) (l.data.getD (off + 1) 0#8) (l.data.getD (off + 2) 0#8) (l.data.getD (off + 3) 0#8)

/-- `data[offset .. offset+3] <- Bytes(v)` (20_memory.md R75). -/
def lineSetWord (l : CacheLine) (off : Nat) (v : Word) : CacheLine :=
  { l with
    data := (((l.data.set off (wordByte v 0)).set (off + 1) (wordByte v 1)).set (off + 2) (wordByte v 2)).set (off + 3)
      (wordByte v 3) }

/-- Replacing the line an address maps to. -/
def setLineOf (a : Word) (l : CacheLine) (s : State) : State :=
  { s with lines := s.lines.set (cacheIndex s.cfg a) l }

/-- The line a miss at `a` brings in: the whole aligned block, with the tag of `a`, valid (20_memory.md R74). -/
def refilledLine (s : State) (a : Word) : CacheLine :=
  { valid := true, tag := cacheTag s.cfg a, data := backBlock s.mem (cacheBase s.cfg a) s.cfg.lineSize }

/-! ### The operations -/

/-- `hits <- hits + 1`. -/
def countHit (s : State) : State := { s with hits := s.hits + 1 }

/-- `misses <- misses + 1`. -/
def countMiss (s : State) : State := { s with misses := s.misses + 1 }

/-- `mem[a..a+3] <- Bytes(v)` on the machine's memory (20_memory.md R73). -/
def storeWord (a : Word) (v : Word) (s : State) : State := { s with mem := backWrite s.mem a.toNat v }

/-- `CacheRead(a)` (20_memory.md R74): bypass, hit, or miss with refill. -/
def cacheRead (a : Word) (s : State) : Word × State :=
  if s.cacheEnabled = false then (backRead s.mem a.toNat, s)
  else if Resident s a then (lineWord (lineOf s a) (cacheOffset s.cfg a), countHit s)
  else (lineWord (refilledLine s a) (cacheOffset s.cfg a), setLineOf a (refilledLine s a) (countMiss s))

/-- `CacheWrite(a, v)` (20_memory.md R75): always through to memory first; then nothing, a hit in place, or a miss that
leaves the line untouched (log 15). -/
def cacheWrite (a v : Word) (s : State) : State :=
  if s.cacheEnabled = false then storeWord a v s
  else if Resident s a then
    setLineOf a (lineSetWord (lineOf s a) (cacheOffset s.cfg a) v) (countHit (storeWord a v s))
  else countMiss (storeWord a v s)

/-- The line made invalid, its tag and data kept. -/
def CacheLine.invalidate (l : CacheLine) : CacheLine := { l with valid := false }

/-- `CacheInvalidate(a)`: the line at the index of `a`, whatever its tag, enabled or not (20_memory.md R76; log 16). -/
def cacheInvalidate (a : Word) (s : State) : State := setLineOf a (lineOf s a).invalidate s

/-- `CacheInvalidateAll()`, which is also flush (20_memory.md R77). -/
def cacheInvalidateAll (s : State) : State := { s with lines := s.lines.map CacheLine.invalidate }

/-- `CacheToggle(e)`: disabling also invalidates every line (20_memory.md R78). -/
def cacheToggle (e : Bool) (s : State) : State :=
  if e = true then { s with cacheEnabled := true } else cacheInvalidateAll { s with cacheEnabled := false }

/-- `hit_rate`: the exact ratio, 0 before any access (20_memory.md R79). -/
def hitRate (s : State) : Rat :=
  if s.hits + s.misses = 0 then 0 else (s.hits : Rat) / ((s.hits + s.misses : Nat) : Rat)

end Sys2Proof.Machine
end

