-- ==== Sys2Proof/Machine/Bus.lean ====
section
/-! DEFINITION. The MemoryBus: the address decoder and arbiter in front of the cache and the I/O registers
(20_memory.md R50 to R64; 60_exceptions.md R215 to R219). -/

namespace Sys2Proof.Machine

/-- The I/O register at an address, none when the address is unregistered (60_exceptions.md R215; log 13). -/
def ioRegAt (c : Config) (a : Word) : Option IoReg :=
  if a.toNat = c.ioBase then some .input
  else if a.toNat = c.ioBase + 4 then some .output
  else if a.toNat = c.ioBase + 8 then some .status
  else none

/-- `io[addr]` of a registered address (10_state.md R35). -/
def IoMap.get (m : IoMap) : IoReg → Word
  | .input => m.input
  | .output => m.output
  | .status => m.status

/-- `mem_reads <- mem_reads + 1` (20_memory.md R63). -/
def countMemRead (s : State) : State := { s with memReads := s.memReads + 1 }

/-- `mem_writes <- mem_writes + 1` (20_memory.md R63). -/
def countMemWrite (s : State) : State := { s with memWrites := s.memWrites + 1 }

/-- `io_reads <- io_reads + 1` (20_memory.md R63). -/
def countIoRead (s : State) : State := { s with ioReads := s.ioReads + 1 }

/-- `io_writes <- io_writes + 1` (20_memory.md R63). -/
def countIoWrite (s : State) : State := { s with ioWrites := s.ioWrites + 1 }

/-- `io[addr] <- v` and the device-side effect: a write to the input register is stored, one to the output register is also
appended to the output sequence, one to the status register also records completion and halts nothing
(60_exceptions.md R216, R217, R218; log 13). -/
def ioWrite (r : IoReg) (v : Word) (s : State) : State :=
  match r with
  | .input => { s with io := { s.io with input := v } }
  | .output => { s with io := { s.io with output := v }, outLog := s.outLog ++ [v] }
  | .status => { s with io := { s.io with status := v }, completion := some v }

/-- Where an address leads, with the order of the bus's checks: alignment, then region, then registration or bounds
(20_memory.md R60, R61, R62; log 11). -/
inductive Route where
  /-- A word of the memory region. -/
  | memory
  /-- A registered I/O register. -/
  | io (r : IoReg)
  /-- Nothing: the access raises this kind. -/
  | bad (kind : ErrorKind)
  deriving DecidableEq, Repr

/-- The address decoder: lines 1 to 3 of `MemRead` and of `MemWrite` (20_memory.md R60, R61). -/
def busRoute (c : Config) (a : Word) : Route :=
  if a.toNat % 4 ≠ 0 then .bad .addressError
  else if c.ioBase ≤ a.toNat then
    match ioRegAt c a with
    | some r => .io r
    | none => .bad .ioAddressError
  else if c.memorySize < a.toNat + 4 then .bad .addressError
  else .memory

/-- `MemRead(addr, 4)`: the word and the state after, or what it raises, with nothing changed (20_memory.md R60). -/
def memRead (a : Word) (s : State) : Except Raised (Word × State) :=
  match busRoute s.cfg a with
  | .bad k => .error { kind := k, addr := a }
  | .io r => .ok (s.io.get r, countIoRead s)
  | .memory => .ok (cacheRead a (countMemRead s))

/-- `MemWrite(addr, 4, v)`: the state after, or what it raises, with nothing changed (20_memory.md R61). -/
def memWrite (a v : Word) (s : State) : Except Raised State :=
  match busRoute s.cfg a with
  | .bad k => .error { kind := k, addr := a }
  | .io r => .ok (ioWrite r v (countIoWrite s))
  | .memory => .ok (cacheWrite a v (countMemWrite s))

end Sys2Proof.Machine
end

