-- ==== Sys2Proof/Machine/LoadStore.lean ====
section
/-! DEFINITION. Loads and stores: LW, SW (42_load_store.md). The bus alone checks the address (log 12). -/

namespace Sys2Proof.Machine

/-- LW: `x[rt] <- MemRead(EA, 4)`; the read is made for `rt = 0` too, and a raise leaves `x[rt]` unwritten (R171; log 20). -/
def execLw (rs rt : RegIdx) (imm : Word) (s : State) : Host.Outcome State Fault Refusal :=
  match memRead (effectiveAddress rs imm s) s with
  | .ok (v, s') => .next (pcUpdate (writeReg rt v s'))
  | .error e => .next (takeFault e s)

/-- SW: `MemWrite(EA, 4, x[rt])` (R172). -/
def execSw (rs rt : RegIdx) (imm : Word) (s : State) : Host.Outcome State Fault Refusal :=
  match memWrite (effectiveAddress rs imm s) (readReg rt s) s with
  | .ok s' => .next (pcUpdate s')
  | .error e => .next (takeFault e s)

end Sys2Proof.Machine
end

