-- ==== Sys2Proof/Machine/System.lean ====
section
/-! DEFINITION. System instructions: CACHECTL, HALT (44_system.md). -/

namespace Sys2Proof.Machine

/-- CACHECTL: no effect, then the ordinary PC update (R191; log 18). -/
def execCachectl (s : State) : Host.Outcome State Fault Refusal := .next (pcUpdate s)

/-- HALT: `run <- HALTED`; the PC-update phase runs only with the switch `HALT_ADVANCES_PC` on (R190; log 9). -/
def execHalt (s : State) : Host.Outcome State Fault Refusal :=
  .next (if s.cfg.haltAdvancesPc = true then pcUpdate (enterHalted s) else enterHalted s)

end Sys2Proof.Machine
end

