-- ==== Sys2Proof/Machine/Fetch.lean ====
section
/-! DEFINITION. The fetch phase, and placing a word where it is fetched. -/

namespace Sys2Proof.Machine

/-- Phase 1: the CPU checks the PC itself, then reads the word through the bus (40_step_cycle.md R142). -/
def fetch (s : State) : Except Raised (Word × State) :=
  if s.pc.toNat % 4 ≠ 0 ∨ s.cfg.memorySize < s.pc.toNat + 4 then .error { kind := .addressError, addr := s.pc }
  else memRead s.pc s

/-- The state with `w` at the PC, as a load leaves it: the bytes written big-endian, the line its address maps to made
invalid (20_memory.md R90, R94), and a CPU that is running with no fault recorded, since a HALTED CPU fetches nothing
(log 23). -/
def placeFetchWord (w : Word) (s : State) : State :=
  { cacheInvalidate s.pc (storeWord s.pc w s) with run := .running, fault := none }

end Sys2Proof.Machine
end

