-- ==== Sys2Proof/Machine/Step.lean ====
section
/-! DEFINITION. One step: fetch, decode, then the meaning of the decoded instruction, which is its execute phase and its
PC update (40_step_cycle.md R140, R149). -/

namespace Sys2Proof.Machine

/-- `Step()` (40_step_cycle.md R149). A fault of the fetch or of the decode phase is taken as 60_exceptions.md R205 says:
it is a next state. The effects of the fetch stay when the decode faults (R143). -/
def step (s : State) : Host.Outcome State Fault Refusal :=
  match s.run with
  | .halted => stepHalted s
  | .running =>
    match fetch s with
    | .error e => .next (takeFault e s)
    | .ok (w, s') =>
      match decode w with
      | .error _ => .next (takeDecodeFault s')
      | .ok i => exec i (beginExecute s')

/-- The state whose very next step fetches and runs the word (log 23). -/
def State.withFetchWord (s : State) (nbits w : Nat) : State := placeFetchWord (tableWord nbits w) s

end Sys2Proof.Machine
end

