-- ==== Sys2Proof/Machine/HostOps.lean ====
section
/-! DEFINITION. What the host can do to the machine, between steps only (00_scope.md Table O): build it, load memory, clear
it, read statistics, step it, run it, reset the CPU, change the input register. -/

namespace Sys2Proof.Machine

/-! ### Machine build -/

/-- Machine build: a legal configuration gives a machine, any other is a `ConfigurationError` and no machine exists
(70_reset_and_hazards.md R231, 60_exceptions.md R204; log 28). -/
def buildMachine (c : Config) : Host.Outcome State Fault Refusal :=
  if c.Legal then .next (State.init c) else .fault .configurationError

/-! ### Bulk loads and clear -/

/-- `mem[base + k] <- bytes[k]` for every `k`. -/
def writeBytes : Memory → Nat → List Byte → Memory
  | m, _, [] => m
  | m, base, b :: bs => writeBytes (Memory.write m base b) (base + 1) bs

/-- `LoadProgram(bytes, base)`: all or nothing, and the whole cache invalidated; the failure goes to the host
(20_memory.md R90, 60_exceptions.md R223; log 24). -/
def loadProgram (bytes : List Byte) (base : Word) (s : State) : Except Raised State :=
  if s.cfg.memorySize < base.toNat + bytes.length then .error { kind := .addressError, addr := base }
  else .ok (cacheInvalidateAll { s with mem := writeBytes s.mem base.toNat bytes })

/-- An address `LoadWords` accepts (20_memory.md R91). -/
abbrev WordInside (c : Config) (a : Word) : Prop := a.toNat % 4 = 0 ∧ a.toNat + 4 ≤ c.memorySize

/-- `BackWrite(a, v)` for every pair of the map. -/
def writeWords : Memory → List (Word × Word) → Memory
  | m, [] => m
  | m, (a, v) :: ws => writeWords (backWrite m a.toNat v) ws

/-- The first address of the map that `LoadWords` rejects. -/
def firstRejected (c : Config) : List (Word × Word) → Option Word
  | [] => none
  | (a, _) :: ws => if WordInside c a then firstRejected c ws else some a

/-- `LoadWords(map)`: all or nothing, and the whole cache invalidated (20_memory.md R91; log 24). The map is a list of
pairs with distinct addresses; of two pairs with one address the later would win. -/
def loadWords (ws : List (Word × Word)) (s : State) : Except Raised State :=
  match firstRejected s.cfg ws with
  | some a => .error { kind := .addressError, addr := a }
  | none => .ok (cacheInvalidateAll { s with mem := writeWords s.mem ws })

/-- `Clear()`: memory zeroed, lines invalidated, the six counters reset; the enable flag, the I/O side and the CPU are left
(20_memory.md R93; log 25). -/
def clearBus (s : State) : State :=
  cacheInvalidateAll { s with mem := [], hits := 0, misses := 0, memReads := 0, memWrites := 0, ioReads := 0, ioWrites := 0 }

/-- The host changes the input register between steps (60_exceptions.md R216; no counter moves: log 26). -/
def setInput (v : Word) (s : State) : State := { s with io := { s.io with input := v } }

/-! ### What the host reads -/

/-- The statistics record (20_memory.md R92). -/
structure Stats where
  hits : Nat
  misses : Nat
  hitRate : Rat
  memReads : Nat
  memWrites : Nat
  ioReads : Nat
  ioWrites : Nat
  deriving DecidableEq, Repr

/-- `GetStats()` (20_memory.md R92). -/
def getStats (s : State) : Stats where
  hits := s.hits
  misses := s.misses
  hitRate := hitRate s
  memReads := s.memReads
  memWrites := s.memWrites
  ioReads := s.ioReads
  ioWrites := s.ioWrites

/-- What the host may read after a run (40_step_cycle.md R152). -/
structure Observation where
  stats : Stats
  regs : List Word
  pc : Word
  outLog : List Word
  completion : Option Word
  run : RunState
  fault : Option FaultRecord
  deriving DecidableEq, Repr

/-- Post-run observability: the register file is read through `readReg` (40_step_cycle.md R152). -/
def observe (s : State) : Observation where
  stats := getStats s
  regs := (List.range 32).map fun i => readReg (BitVec.ofNat 5 i) s
  pc := s.pc
  outLog := s.outLog
  completion := s.completion
  run := s.run
  fault := s.fault

/-! ### Step and Run -/

/-- What `Step()` reports to the host (40_step_cycle.md R150). -/
inductive StepReport where
  | ok
  | faulted (kind : ErrorKind)
  | halted
  deriving DecidableEq, Repr

/-- The state after a step. `step` always answers a next state (Laws/Step.lean), so the other two arms are never taken. -/
def afterStep (s : State) : State :=
  match step s with
  | .next t => t
  | .fault _ => s
  | .refused _ => s

/-- The report of a step: `Halted` when the CPU was halted before it, `Fault(kind)` when it faulted, `Ok` otherwise, a
HALT among them (40_step_cycle.md R150). -/
def stepReport (s : State) : StepReport :=
  match s.run with
  | .halted => .halted
  | .running =>
    match (afterStep s).fault with
    | some f => .faulted f.kind
    | none => .ok

/-- The result of a run under fuel; running out of fuel is no machine state (40_step_cycle.md R151,
93_implementation_defined.md U14). -/
inductive RunResult where
  | ended (s : State)
  | outOfFuel
  deriving DecidableEq, Repr

/-- `Run()` under fuel: repeat `Step()` while RUNNING (40_step_cycle.md R151; log 29). -/
def runFor : Nat → State → RunResult
  | 0, s => match s.run with
    | .halted => .ended s
    | .running => .outOfFuel
  | n + 1, s => match s.run with
    | .halted => .ended s
    | .running => runFor n (afterStep s)

/-! ### Every host operation as one command -/

/-- A command of the host, carried out between two steps (00_scope.md Table O). -/
inductive HostOp where
  | step
  | memRead (a : Word)
  | memWrite (a v : Word)
  | loadProgram (bytes : List Byte) (base : Word)
  | loadWords (ws : List (Word × Word))
  | clear
  | cacheInvalidate (a : Word)
  | cacheInvalidateAll
  | cacheToggle (enabled : Bool)
  | cpuReset
  | setInput (v : Word)
  deriving DecidableEq, Repr

/-- The state after a host operation that may fail: a failing one changes nothing (60_exceptions.md R223). -/
def orUnchanged (s : State) (r : Except Raised State) : State :=
  match r with
  | .ok t => t
  | .error _ => s

/-- The state after a command of the host. -/
def applyHostOp (op : HostOp) (s : State) : State :=
  match op with
  | .step => afterStep s
  | .memRead a => orUnchanged s ((memRead a s).map Prod.snd)
  | .memWrite a v => orUnchanged s (memWrite a v s)
  | .loadProgram bytes base => orUnchanged s (loadProgram bytes base s)
  | .loadWords ws => orUnchanged s (loadWords ws s)
  | .clear => clearBus s
  | .cacheInvalidate a => cacheInvalidate a s
  | .cacheInvalidateAll => cacheInvalidateAll s
  | .cacheToggle e => cacheToggle e s
  | .cpuReset => cpuReset s
  | .setInput v => setInput v s

end Sys2Proof.Machine
end

