-- ==== Sys2Proof/Safety.lean ====
section
/-! DEFINITION. What the claims say of states: the invariants of 10_state.md R44, how a run ends, and when two states differ
in the cache alone. -/

namespace Sys2Proof.Machine

/-- A valid line holds the memory's bytes of its block, which lies inside the memory (20_memory.md R80). -/
abbrev LineCoherent (s : State) (i : Nat) : Prop :=
  (lineAt s i).valid = true →
    lineBase s.cfg (lineAt s i).tag i + s.cfg.lineSize ≤ s.cfg.memorySize ∧
      ∀ k, k < s.cfg.lineSize →
        (lineAt s i).data.getD k 0#8 = Memory.read s.mem (lineBase s.cfg (lineAt s i).tag i + k)

/-- The part of the invariant that speaks of what the MemoryBus and the Cache own (10_state.md R34, R37, R44; 20_memory.md
R80), with the canonical form of the model's memory. -/
structure State.BusInv (s : State) : Prop where
  /-- R44 (iv): the machine was built with a legal configuration. -/
  legal : s.cfg.Legal
  /-- The canonical form of the memory list. -/
  memWf : Memory.wf s.mem = true
  /-- R34: the byte memory is `[0, MEMORY_SIZE)`. -/
  memInside : ∀ cell ∈ s.mem, cell.1 < s.cfg.memorySize
  /-- R37: `NUM_LINES` lines. -/
  lineCount : s.lines.length = s.cfg.numLines
  /-- R37: `LINE_SIZE` bytes a line. -/
  lineData : ∀ l ∈ s.lines, l.data.length = s.cfg.lineSize
  /-- R44 (iii), R80. -/
  coherent : ∀ i, i < s.cfg.numLines → LineCoherent s i
  /-- R78: while the cache is disabled no line is valid, so that a write that bypasses it leaves nothing stale. -/
  disabledEmpty : s.cacheEnabled = false → ∀ l ∈ s.lines, l.valid = false

/-- The invariant of every state between two steps (10_state.md R26, R28, R29, R30, R44; 60_exceptions.md R206). -/
structure State.Inv (s : State) : Prop extends State.BusInv s where
  /-- R44 (i): "register[0]==0 always". -/
  zeroReg : s.regs[0] = 0#32
  /-- R44 (ii), R26. -/
  pcAligned : s.pc.toNat % 4 = 0
  /-- R44 (ii), R26. -/
  pcInBounds : s.pc.toNat < s.cfg.memorySize
  /-- R28: `next` is none between any two steps. -/
  latchClear : s.next = none
  /-- R29, R30: a recorded fault halted the CPU. -/
  faultHalted : s.fault ≠ none → s.run = .halted
  /-- R206: a record names the PC it left, and none of its kinds is that of machine build. -/
  faultRecord : ∀ f ∈ s.fault, f.pc = s.pc ∧ f.kind ≠ .configurationError

/-- The register an instruction may write: `rd` of ADD, SUB, SLT, `rt` of ADDI and LW, `x[31]` of JAL, none of the others
(10_state.md R23 Table B). -/
def destReg : Instr → Option RegIdx
  | .add _ _ rd _ => some rd
  | .sub _ _ rd _ => some rd
  | .slt _ _ rd _ => some rd
  | .j _ => none
  | .jal _ => some 31#5
  | .beq _ _ _ => none
  | .bne _ _ _ => none
  | .addi _ rt _ => some rt
  | .lw _ rt _ => some rt
  | .sw _ _ _ => none
  | .cachectl => none
  | .halt => none

/-- The run is over (40_step_cycle.md R151, 70_reset_and_hazards.md R244). -/
abbrev RunOver (s : State) : Prop := s.run = .halted

/-- The run ended well: by a HALT, with no fault reported (40_step_cycle.md R151, 70_reset_and_hazards.md R244). -/
abbrev EndedWell (s : State) : Prop := s.run = .halted ∧ s.fault = none

/-- The state with the cache's own state (lines, enable flag, hit and miss counters) taken from another. -/
def withCacheOf (t s : State) : State :=
  { s with lines := t.lines, cacheEnabled := t.cacheEnabled, hits := t.hits, misses := t.misses }

/-- Two states differ in the cache's own state alone: everything a program, or the host through memory and registers, can
see is the same (20_memory.md R70, R81). -/
abbrev SameButCache (s t : State) : Prop := withCacheOf t s = t

/-- The states the host can bring a machine to: build it with a legal configuration, then any sequence of its commands,
steps among them (00_scope.md Table O). -/
inductive Reachable : State → Prop where
  | built (c : Config) (h : c.Legal) : Reachable (State.init c)
  | command (op : HostOp) (s : State) (h : Reachable s) : Reachable (applyHostOp op s)

/-- Zero or more steps (40_step_cycle.md R151: `Run()` is the closure of the step relation). -/
inductive Steps : State → State → Prop where
  | refl (s : State) : Steps s s
  | step (s t u : State) (h : step s = .next t) (hs : Steps t u) : Steps s u

end Sys2Proof.Machine
end

