-- ==== Sys2Proof/Certificates/Slice0/Obligations.lean ====
section
/-! DEFINITION. The statements for the provers. Each docstring names the rule of spec/ it formalises, or says which decision
of the spec (92_eei_decisions.md Dn) and which log entry it rests on. -/

open Sys2Proof Sys2Proof.Machine

/-! ### Encoding -/

/-- One word of every row, written out from the field layouts of 30_encoding.md Tables F-R, F-I, F-J, F-S, decodes to its
instruction, and five illegal words are rejected (95_test_vectors.md Table V-DEC; that the low bits of the CACHECTL and HALT words decide
nothing is the spec's decision D11, log 17). -/
def Obligations.HandWrittenWordsDecode : Prop :=
  decode 0x014B5020#32 = .ok (.add 10#5 11#5 10#5 0#5) ∧ decode 0x01095822#32 = .ok (.sub 8#5 9#5 11#5 0#5) ∧
    decode 0x0128502A#32 = .ok (.slt 9#5 8#5 10#5 0#5) ∧ decode 0x08000002#32 = .ok (.j 2#26) ∧
    decode 0x0C000006#32 = .ok (.jal 6#26) ∧ decode 0x11000003#32 = .ok (.beq 8#5 0#5 3#32) ∧
    decode 0x1509FFFC#32 = .ok (.bne 8#5 9#5 0xFFFFFFFC#32) ∧ decode 0x2108FFFF#32 = .ok (.addi 8#5 8#5 0xFFFFFFFF#32) ∧
    decode 0x8FBF0004#32 = .ok (.lw 29#5 31#5 4#32) ∧ decode 0xAFA8FFFC#32 = .ok (.sw 29#5 8#5 0xFFFFFFFC#32) ∧
    decode 0xFBFFFFFF#32 = .ok .cachectl ∧ decode 0xFFFFFFFF#32 = .ok .halt ∧
    decode 0x00000000#32 = .error (.badFunct 0x00#6) ∧ decode 0x00000021#32 = .error (.badFunct 0x21#6) ∧
    decode 0x24000000#32 = .error (.badOpcode 0x09#6) ∧ decode 0x80000000#32 = .error (.badOpcode 0x20#6) ∧
    decode 0xF4000000#32 = .error (.badOpcode 0x3D#6)

/-- `Decode(Encode(d)) = d` for every well-formed instruction, from the word and from its bytes in memory order (30_encoding.md
R125, which the spec marks as derived, and 20_memory.md R53; the immediate is held sign-extended, log 30). -/
def Obligations.DecodeOfEncodeIsTheInstruction : Prop :=
  ∀ i : Instr, i.WellFormed = true →
    decode (encode i) = .ok i ∧
      ∀ rest : List Byte,
        decodeBytes (wordByte (encode i) 0 :: wordByte (encode i) 1 :: wordByte (encode i) 2 :: wordByte (encode i) 3 :: rest)
          = .ok (i, rest)

/-- `Encode(Decode(w)) = w` for every legal word of R, I or J format and `w & 0xFC000000` for the special format; what the
decoder returns is well formed (30_encoding.md R125, R111; the bits no field uses are the spec's decision D11, log 17). -/
def Obligations.EncodeOfDecodeIsTheCanonicalWord : Prop :=
  ∀ (w : Word) (i : Instr), decode w = .ok i →
    i.WellFormed = true ∧
      encode i = if opcodeOf w = 0x3E#6 ∨ opcodeOf w = 0x3F#6 then w &&& 0xFC000000#32 else w

/-- 30_encoding.md R117: "A word `w` is the instruction of a row exactly when `w & mask = match`." Every word no row matches
is illegal, and no two rows match the same word. -/
def Obligations.DecodeFollowsTheOpcodeTable : Prop :=
  (∀ w : Word, ∀ r ∈ opcodeTable, r.Matches w ↔ ∃ i, decode w = .ok i ∧ i.mnemonic = r.mnemonic) ∧
    (∀ w : Word, (∃ e, decode w = .error e) ↔ ∀ r ∈ opcodeTable, ¬r.Matches w) ∧
    ∀ w : Word, ∀ r ∈ opcodeTable, ∀ r' ∈ opcodeTable, r.Matches w → r'.Matches w → r = r'

/-- 30_encoding.md R118: the three functs under opcode 0 are ADD, SUB and SLT, and every other is illegal. -/
def Obligations.FunctMapUnderOpcodeZero : Prop :=
  ∀ w : Word, opcodeOf w = 0x00#6 →
    (functOf w = 0x20#6 → decode w = .ok (.add (rsOf w) (rtOf w) (rdOf w) (shamtOf w))) ∧
      (functOf w = 0x22#6 → decode w = .ok (.sub (rsOf w) (rtOf w) (rdOf w) (shamtOf w))) ∧
      (functOf w = 0x2A#6 → decode w = .ok (.slt (rsOf w) (rtOf w) (rdOf w) (shamtOf w))) ∧
      (functOf w ∉ [0x20#6, 0x22#6, 0x2A#6] → ∃ e, decode w = .error e)

/-- 30_encoding.md R119: the decoder is the codec's algorithm, descriptor for descriptor. -/
def Obligations.DecodeIsTheCodecAlgorithm : Prop :=
  ∀ w : Word, (decode w).map Instr.descriptor = decodeDescriptor w

/-- Label resolution is defined exactly where the displacement is a multiple of 4 whose quotient fits sixteen signed bits, for a
jump exactly where the label is a multiple of 4 in the jump's own region, and there it inverts the target formulas: the branch
or jump it encodes goes to the label (30_encoding.md R132, which the spec marks as derived). -/
def Obligations.LabelResolutionInvertsTheTargets : Prop :=
  (∀ a l : Word,
      ((∃ imm, branchImmFor a l = some imm) ↔
        ((l.toNat : Int) - ((a.toNat : Int) + 4)) % 4 = 0 ∧ -32768 ≤ ((l.toNat : Int) - ((a.toNat : Int) + 4)) / 4 ∧
          ((l.toNat : Int) - ((a.toNat : Int) + 4)) / 4 ≤ 32767) ∧
        ∀ imm, branchImmFor a l = some imm → ImmFits imm ∧ a + 4#32 + (imm <<< 2) = l) ∧
    ∀ a l : Word,
      ((∃ target, jumpTargetFor a l = some target) ↔ l.toNat % 4 = 0 ∧ l.toNat / 2 ^ 28 = a.toNat / 2 ^ 28) ∧
        ∀ target, jumpTargetFor a l = some target → (a &&& 0xF0000000#32) ||| (target.setWidth 32 <<< 2) = l

/-! ### The step -/

/-- The step runs the decoded instruction: after a fetch that answers a word which decodes to `i`, the step is the meaning of
`i` on the fetched state with the latch empty (40_step_cycle.md R149, which the spec marks as derived). -/
def Obligations.StepRunsTheDecodedInstruction : Prop :=
  ∀ (s s' : State) (w : Word) (i : Instr), s.run = .running → fetch s = .ok (w, s') → decode w = .ok i →
    step s = exec i { s' with next := none }

/-- The step of a running machine, from its memory: when the word at the PC decodes to `i`, the step is the meaning of `i` on a
state that differs from the old one only in the fetch's count and in the cache (40_step_cycle.md R142, R149; 20_memory.md
R81; that a fetch counts as a memory read is the spec's decision D14, log 14). The premise is the invariant of
`StepKeepsTheInvariant`. -/
def Obligations.StepRunsTheInstructionInMemory : Prop :=
  ∀ (s : State) (i : Instr), s.Inv → s.run = .running → decode (backRead s.mem s.pc.toNat) = .ok i →
    ∃ f, step s = exec i f ∧ f.BusInv ∧ f.memReads = s.memReads + 1 ∧
      { f with memReads := s.memReads, lines := s.lines, hits := s.hits, misses := s.misses } = s ∧
      (s.cacheEnabled = true →
        (f.hits = s.hits + 1 ∧ f.misses = s.misses) ∨ (f.hits = s.hits ∧ f.misses = s.misses + 1)) ∧
      (s.cacheEnabled = false → f.lines = s.lines ∧ f.hits = s.hits ∧ f.misses = s.misses)

/-- 40_step_cycle.md R142: a misaligned or out-of-bounds PC is an AddressError of the fetch and never a read of memory or I/O;
otherwise the word is read through the bus; in a state that meets the invariant the check never fails and the read never
raises, and it counts one memory read and, with the cache enabled, one hit or one miss. -/
def Obligations.FetchChecksThePcAndReadsThroughTheBus : Prop :=
  (∀ s : State, s.run = .running → (s.pc.toNat % 4 ≠ 0 ∨ s.cfg.memorySize < s.pc.toNat + 4) →
      ∃ t, step s = .next t ∧ t.run = .halted ∧
        (∃ f, t.fault = some f ∧ f.kind = .addressError ∧ f.addr = s.pc) ∧ t.memReads = s.memReads ∧
        t.ioReads = s.ioReads ∧ t.lines = s.lines) ∧
    (∀ s : State, s.pc.toNat % 4 = 0 → s.pc.toNat + 4 ≤ s.cfg.memorySize → fetch s = memRead s.pc s) ∧
    ∀ s : State, s.Inv →
      ∃ w t, fetch s = .ok (w, t) ∧ t.memReads = s.memReads + 1 ∧
        (s.cacheEnabled = true →
          (t.hits = s.hits + 1 ∧ t.misses = s.misses) ∨ (t.hits = s.hits ∧ t.misses = s.misses + 1))

/-- 40_step_cycle.md R143 and 60_exceptions.md R201: a fetched word with an opcode outside the ten, or with opcode 0 and a funct
outside the three, is a DecodeError with `addr = pc`; the effects of the fetch stay, the word's among them untouched in memory. -/
def Obligations.IllegalWordTakesTheDecodeFault : Prop :=
  ∀ (s s' : State) (w : Word), s.run = .running → fetch s = .ok (w, s') →
    (opcodeOf w ∉ [0x00#6, 0x02#6, 0x03#6, 0x04#6, 0x05#6, 0x08#6, 0x23#6, 0x2B#6, 0x3E#6, 0x3F#6] ∨
      (opcodeOf w = 0x00#6 ∧ functOf w ∉ [0x20#6, 0x22#6, 0x2A#6])) →
    ∃ t, step s = .next t ∧ t.run = .halted ∧ t.fault = some { kind := .decodeError, pc := s.pc, addr := s.pc } ∧
      { t with run := s'.run, fault := s'.fault, next := s'.next } = s' ∧ t.mem = s.mem

/-- A step of a HALTED CPU changes no state at all and reports that it is halted (40_step_cycle.md R141, the spec's decision
D10; log 8). -/
def Obligations.HaltedStepChangesNothing : Prop :=
  ∀ s : State, s.run = .halted → step s = .next s ∧ stepReport s = .halted

/-- A step reports `Halted` when the CPU was already halted and then nothing happened, `Fault(kind)` when it faulted, after
which the CPU is HALTED and the record is set, and `Ok` when it completed an instruction on the state its fetch left, a HALT
among them (40_step_cycle.md section 1; the spec's decisions D9 and D10, logs 9 and 8). -/
def Obligations.StepReportsItsOutcome : Prop :=
  ∀ s : State, s.Inv →
    (stepReport s = .halted ↔ s.run = .halted) ∧
      (stepReport s = .halted → afterStep s = s) ∧
      (∀ k, stepReport s = .faulted k →
        (afterStep s).run = .halted ∧ ∃ f, (afterStep s).fault = some f ∧ f.kind = k) ∧
      (stepReport s = .ok →
        (afterStep s).fault = none ∧
          ∃ i f, decode (backRead s.mem s.pc.toNat) = .ok i ∧ fetch s = .ok (backRead s.mem s.pc.toNat, f) ∧
            step s = exec i { f with next := none }) ∧
      (s.run = .running → decode (backRead s.mem s.pc.toNat) = .ok .halt → s.cfg.haltAdvancesPc = false →
        stepReport s = .ok ∧ (afterStep s).run = .halted)

/-- Whatever the phase, a faulting step leaves the PC at the faulting instruction, halts the CPU, clears the latch and records
that PC (40_step_cycle.md R148, 60_exceptions.md R205, R206, R209; the record's fields are the spec's decision D12, log 10). -/
def Obligations.FaultingStepKeepsThePc : Prop :=
  ∀ (s t : State) (f : FaultRecord), s.Inv → s.run = .running → step s = .next t → t.fault = some f →
    t.pc = s.pc ∧ t.run = .halted ∧ t.next = none ∧ f.pc = s.pc ∧
      (f.kind = .decodeError ∨ f.kind = .addressError ∨ f.kind = .ioAddressError)

/-- 10_state.md R29: RUNNING goes to HALTED by the HALT instruction and by every fault and by nothing else; no step makes HALTED
RUNNING, and of the host's commands only CPU reset does. -/
def Obligations.HaltedIsTerminalAndReachedByHaltOrFault : Prop :=
  (∀ s t : State, s.Inv → s.run = .running → step s = .next t →
      (t.run = .halted ↔ t.fault ≠ none ∨ decode (backRead s.mem s.pc.toNat) = .ok .halt)) ∧
    (∀ s t : State, s.run = .halted → step s = .next t → t.run = .halted) ∧
    ∀ (op : HostOp) (s : State), s.run = .halted → ((applyHostOp op s).run = .running ↔ op = .cpuReset)

/-- A run that ends under fuel is a sequence of steps to a HALTED state, and more fuel changes nothing; and wherever steps lead
to a HALTED state, some fuel ends the run there (40_step_cycle.md R151, the spec's decision D31; log 29). -/
def Obligations.RunIsTheClosureOfTheStep : Prop :=
  (∀ (n : Nat) (s t : State), runFor n s = .ended t →
      Steps s t ∧ RunOver t ∧ ∀ m, n ≤ m → runFor m s = .ended t) ∧
    ∀ s t : State, Steps s t → RunOver t → ∃ n, runFor n s = .ended t

/-! ### Arithmetic -/

/-- 41_arithmetic.md R160. `rd = 0` discards the result; the operands are read before the write. -/
def Obligations.AddWritesTheWrappedSum : Prop :=
  ∀ (rs rt rd : RegIdx) (shamt : BitVec 5) (s : State), s.next = none → (s.pc + 4#32).toNat < s.cfg.memorySize →
    ∃ t, exec (.add rs rt rd shamt) s = .next t ∧ t.pc = s.pc + 4#32 ∧
      (∀ r, readReg r t =
        if r = rd ∧ rd ≠ 0#5 then BitVec.ofNat 32 ((readReg rs s).toNat + (readReg rt s).toNat) else readReg r s) ∧
      { t with regs := s.regs, pc := s.pc } = s

/-- SUB: `x[rs] - x[rt]` mod 2^32 (41_arithmetic.md section 2; the operand order is general knowledge, D25, log 19). -/
def Obligations.SubWritesTheWrappedDifference : Prop :=
  ∀ (rs rt rd : RegIdx) (shamt : BitVec 5) (s : State), s.next = none → (s.pc + 4#32).toNat < s.cfg.memorySize →
    ∃ t, exec (.sub rs rt rd shamt) s = .next t ∧ t.pc = s.pc + 4#32 ∧
      (∀ r, readReg r t =
        if r = rd ∧ rd ≠ 0#5 then BitVec.ofInt 32 ((readReg rs s).toNat - (readReg rt s).toNat) else readReg r s) ∧
      { t with regs := s.regs, pc := s.pc } = s

/-- SLT: 1 when `signed(x[rs]) < signed(x[rt])`, else 0 (41_arithmetic.md section 2; the operand order and the result values are
general knowledge, D25, log 19). -/
def Obligations.SltWritesTheSignedComparison : Prop :=
  ∀ (rs rt rd : RegIdx) (shamt : BitVec 5) (s : State), s.next = none → (s.pc + 4#32).toNat < s.cfg.memorySize →
    ∃ t, exec (.slt rs rt rd shamt) s = .next t ∧ t.pc = s.pc + 4#32 ∧
      (∀ r, readReg r t =
        if r = rd ∧ rd ≠ 0#5 then (if (readReg rs s).toInt < (readReg rt s).toInt then 1#32 else 0#32) else readReg r s) ∧
      { t with regs := s.regs, pc := s.pc } = s

/-- 41_arithmetic.md R163. The destination is `rt`; `rt = 0` is a no-op. -/
def Obligations.AddiWritesTheWrappedSum : Prop :=
  ∀ (rs rt : RegIdx) (imm : Word) (s : State), s.next = none → (s.pc + 4#32).toNat < s.cfg.memorySize →
    ∃ t, exec (.addi rs rt imm) s = .next t ∧ t.pc = s.pc + 4#32 ∧
      (∀ r, readReg r t =
        if r = rt ∧ rt ≠ 0#5 then BitVec.ofNat 32 ((readReg rs s).toNat + imm.toNat) else readReg r s) ∧
      { t with regs := s.regs, pc := s.pc } = s

/-- In the last word of memory ADD, SUB, SLT, ADDI and CACHECTL complete their execute phase, the register written, and then the
PC update faults in the same step (60_exceptions.md R207 (c), 40_step_cycle.md R146; the spec's decisions D12 and D13, log 10; the values of SUB and SLT are
general knowledge, D25, log 19; CACHECTL is D28, log 18). -/
def Obligations.FallingOffMemoryFaultsAfterTheRegisterWrite : Prop :=
  ∀ s : State, s.next = none → s.cfg.memorySize ≤ (s.pc + 4#32).toNat →
    ∀ (i : Instr) (d : RegIdx) (v : Word),
      ((∃ rs rt sh, i = .add rs rt d sh ∧ v = readReg rs s + readReg rt s) ∨
        (∃ rs rt sh, i = .sub rs rt d sh ∧ v = readReg rs s - readReg rt s) ∨
        (∃ rs rt sh, i = .slt rs rt d sh ∧ v = if (readReg rs s).toInt < (readReg rt s).toInt then 1#32 else 0#32) ∨
        (∃ rs imm, i = .addi rs d imm ∧ v = readReg rs s + imm) ∨ (i = .cachectl ∧ d = 0#5)) →
      ∃ t, exec i s = .next t ∧
        (∀ r, readReg r t = if r = d ∧ d ≠ 0#5 then v else readReg r s) ∧
        t.run = .halted ∧ t.fault = some { kind := .addressError, pc := s.pc, addr := s.pc + 4#32 } ∧
        { t with regs := s.regs, run := s.run, fault := s.fault } = s

/-! ### Loads and stores -/

/-- LW from memory: the big-endian word at `EA = x[rs] + immediate` mod 2^32, the read made for `rt = 0` too; one memory read is
counted and, with the cache enabled, one hit or one miss (42_load_store.md R170, R171; 20_memory.md R81; the spec's decisions
D8, D14 and D23, logs 12, 14 and 20). -/
def Obligations.LwFromMemoryLoadsTheWord : Prop :=
  ∀ (rs rt : RegIdx) (imm : Word) (s : State), s.BusInv → s.next = none → (s.pc + 4#32).toNat < s.cfg.memorySize →
    (readReg rs s + imm).toNat % 4 = 0 → (readReg rs s + imm).toNat < s.cfg.memorySize →
    ∃ t, exec (.lw rs rt imm) s = .next t ∧ t.pc = s.pc + 4#32 ∧
      (∀ r, readReg r t = if r = rt ∧ rt ≠ 0#5 then backRead s.mem (readReg rs s + imm).toNat else readReg r s) ∧
      t.memReads = s.memReads + 1 ∧
      (s.cacheEnabled = true →
        (t.hits = s.hits + 1 ∧ t.misses = s.misses) ∨ (t.hits = s.hits ∧ t.misses = s.misses + 1)) ∧
      (s.cacheEnabled = false → t.lines = s.lines ∧ t.hits = s.hits ∧ t.misses = s.misses) ∧
      { t with
        regs := s.regs, pc := s.pc, memReads := s.memReads, lines := s.lines, hits := s.hits, misses := s.misses } = s

/-- LW from a registered I/O address reads the register, for `rt = 0` too, counts one I/O read and touches neither memory nor
cache (60_exceptions.md R216, R217, R218; the spec's decisions D8, D14, D18 and D23, logs 12, 14, 13 and 20). -/
def Obligations.LwFromIoReadsTheRegister : Prop :=
  ∀ (rs rt : RegIdx) (imm : Word) (s : State) (off : Nat) (v : Word), s.cfg.Legal → s.next = none →
    (s.pc + 4#32).toNat < s.cfg.memorySize → (readReg rs s + imm).toNat = s.cfg.ioBase + off →
    ((off = 0 ∧ v = s.io.input) ∨ (off = 4 ∧ v = s.io.output) ∨ (off = 8 ∧ v = s.io.status)) →
    ∃ t, exec (.lw rs rt imm) s = .next t ∧ t.pc = s.pc + 4#32 ∧
      (∀ r, readReg r t = if r = rt ∧ rt ≠ 0#5 then v else readReg r s) ∧
      t.ioReads = s.ioReads + 1 ∧ { t with regs := s.regs, pc := s.pc, ioReads := s.ioReads } = s

/-- What LW and SW raise: a misaligned address an AddressError, before all else; an aligned address in the gap an AddressError;
an aligned unregistered I/O address an IOAddressError. Registers, memory, cache, I/O and counters stay as they were
(60_exceptions.md R202, R203, R208; 20_memory.md R60, R61, R62; the spec's decisions D7 and D29, log 11, D8, log 12, D12, log 10,
and D18, log 13). -/
def Obligations.LwAndSwFaultOnBadAddresses : Prop :=
  ∀ (rs rt : RegIdx) (imm : Word) (s : State) (i : Instr) (k : ErrorKind), s.cfg.Legal →
    (i = .lw rs rt imm ∨ i = .sw rs rt imm) →
    (((readReg rs s + imm).toNat % 4 ≠ 0 ∧ k = .addressError) ∨
      ((readReg rs s + imm).toNat % 4 = 0 ∧ s.cfg.memorySize ≤ (readReg rs s + imm).toNat ∧
        (readReg rs s + imm).toNat < s.cfg.ioBase ∧ k = .addressError) ∨
      ((readReg rs s + imm).toNat % 4 = 0 ∧ s.cfg.ioBase ≤ (readReg rs s + imm).toNat ∧
        (readReg rs s + imm).toNat ∉ [s.cfg.ioBase, s.cfg.ioBase + 4, s.cfg.ioBase + 8] ∧ k = .ioAddressError)) →
    exec i s = .next { s with
      run := .halted, fault := some { kind := k, pc := s.pc, addr := readReg rs s + imm }, next := none }

/-- SW to memory: the four bytes at `EA` are those of `x[rt]`, big-endian, every other byte is as before, one memory write is
counted and, with the cache enabled, one hit or one miss; no register is written (42_load_store.md R172; 20_memory.md R61,
R75, R81; the spec's decisions D8, D14 and D15, logs 12, 14 and 15). -/
def Obligations.SwToMemoryStoresTheWord : Prop :=
  ∀ (rs rt : RegIdx) (imm : Word) (s : State), s.BusInv → s.next = none → (s.pc + 4#32).toNat < s.cfg.memorySize →
    (readReg rs s + imm).toNat % 4 = 0 → (readReg rs s + imm).toNat < s.cfg.memorySize →
    ∃ t, exec (.sw rs rt imm) s = .next t ∧ t.pc = s.pc + 4#32 ∧
      backRead t.mem (readReg rs s + imm).toNat = readReg rt s ∧
      (∀ x, x < (readReg rs s + imm).toNat ∨ (readReg rs s + imm).toNat + 4 ≤ x →
        Memory.read t.mem x = Memory.read s.mem x) ∧
      t.memWrites = s.memWrites + 1 ∧ t.BusInv ∧
      (s.cacheEnabled = true →
        (t.hits = s.hits + 1 ∧ t.misses = s.misses) ∨ (t.hits = s.hits ∧ t.misses = s.misses + 1)) ∧
      (s.cacheEnabled = false → t.lines = s.lines ∧ t.hits = s.hits ∧ t.misses = s.misses) ∧
      { t with
        pc := s.pc, mem := s.mem, memWrites := s.memWrites, lines := s.lines, hits := s.hits, misses := s.misses } = s

/-- SW to a registered I/O address: the register takes the word; a write to the output register is appended to the output
sequence; a write to the status register records completion and halts nothing; memory and cache are untouched
(60_exceptions.md R216, R217, R218; the spec's decisions D8, D14 and D18, logs 12, 14 and 13). -/
def Obligations.SwToIoWritesTheRegister : Prop :=
  ∀ (rs rt : RegIdx) (imm : Word) (s : State), s.cfg.Legal → s.next = none → (s.pc + 4#32).toNat < s.cfg.memorySize →
    ((readReg rs s + imm).toNat = s.cfg.ioBase →
      exec (.sw rs rt imm) s = .next { s with
        pc := s.pc + 4#32, ioWrites := s.ioWrites + 1, io := { s.io with input := readReg rt s } }) ∧
      ((readReg rs s + imm).toNat = s.cfg.ioBase + 4 →
        exec (.sw rs rt imm) s = .next { s with
          pc := s.pc + 4#32, ioWrites := s.ioWrites + 1, io := { s.io with output := readReg rt s }
          outLog := s.outLog ++ [readReg rt s] }) ∧
      ((readReg rs s + imm).toNat = s.cfg.ioBase + 8 →
        exec (.sw rs rt imm) s = .next { s with
          pc := s.pc + 4#32, ioWrites := s.ioWrites + 1, io := { s.io with status := readReg rt s }
          completion := some (readReg rt s) })

/-- In the last word of memory LW and SW complete their access, to memory or to a registered I/O address, the register (none for
an LW with `rt = 0`, whose read is made all the same) or the store kept with everything the bus did, and then the PC update faults in the same step (60_exceptions.md
R207 (c), 40_step_cycle.md R146; the spec's decisions D12 and D13, log 10, D8, log 12, and D23, log 20). -/
def Obligations.LwAndSwAtTheEndOfMemoryFaultAfterTheAccess : Prop :=
  ∀ (rs rt : RegIdx) (imm : Word) (s u : State), s.next = none → s.cfg.memorySize ≤ (s.pc + 4#32).toNat →
    (∀ v : Word, memRead (readReg rs s + imm) s = .ok (v, u) →
      ∃ t, exec (.lw rs rt imm) s = .next t ∧
        (∀ r, readReg r t = if r = rt ∧ rt ≠ 0#5 then v else readReg r s) ∧
        t.run = .halted ∧ t.fault = some { kind := .addressError, pc := s.pc, addr := s.pc + 4#32 } ∧
        { t with regs := s.regs, run := s.run, fault := s.fault } = u) ∧
      (memWrite (readReg rs s + imm) (readReg rt s) s = .ok u →
        exec (.sw rs rt imm) s = .next { u with
          run := .halted, fault := some { kind := .addressError, pc := s.pc, addr := s.pc + 4#32 } })

/-- A store is seen by a fetch of that address with nothing in between, whether the line was resident or not (20_memory.md
R103, which the spec marks as derived; that SW hands its address to the bus is the spec's decision D8, log 12). -/
def Obligations.StoreIsSeenByTheNextFetch : Prop :=
  ∀ (rs rt : RegIdx) (imm : Word) (s t : State), s.BusInv → (readReg rs s + imm).toNat % 4 = 0 →
    (readReg rs s + imm).toNat < s.cfg.memorySize → exec (.sw rs rt imm) s = .next t →
    ∃ u, fetch { t with pc := readReg rs s + imm } = .ok (readReg rt s, u)

/-! ### Control transfer -/

/-- 43_control_transfer.md R181: taken when the two words are equal, with no other effect; an AddressError of the PC update with
the new PC when that is not inside the memory. What the fault leaves is in `RegisterOnlyFormsFrame`. -/
def Obligations.BeqGoesToItsTargetWhenEqual : Prop :=
  ∀ (rs rt : RegIdx) (imm : Word) (s : State) (new : Word), s.next = none →
    new = (if readReg rs s = readReg rt s then s.pc + 4#32 + (imm <<< 2) else s.pc + 4#32) →
    (new.toNat < s.cfg.memorySize → exec (.beq rs rt imm) s = .next { s with pc := new }) ∧
      (s.cfg.memorySize ≤ new.toNat →
        ∃ t, exec (.beq rs rt imm) s = .next t ∧ t.run = .halted ∧
          ∃ f, t.fault = some f ∧ f.kind = .addressError ∧ f.addr = new)

/-- 43_control_transfer.md R182: as BEQ, taken when the two words differ. -/
def Obligations.BneGoesToItsTargetWhenDifferent : Prop :=
  ∀ (rs rt : RegIdx) (imm : Word) (s : State) (new : Word), s.next = none →
    new = (if readReg rs s ≠ readReg rt s then s.pc + 4#32 + (imm <<< 2) else s.pc + 4#32) →
    (new.toNat < s.cfg.memorySize → exec (.bne rs rt imm) s = .next { s with pc := new }) ∧
      (s.cfg.memorySize ≤ new.toNat →
        ∃ t, exec (.bne rs rt imm) s = .next t ∧ t.run = .halted ∧
          ∃ f, t.fault = some f ∧ f.kind = .addressError ∧ f.addr = new)

/-- 43_control_transfer.md R184: the jump goes to its target with no other effect, or is an AddressError of the PC update with the
target when that is not inside the memory. -/
def Obligations.JGoesToItsTarget : Prop :=
  ∀ (target : BitVec 26) (s : State) (new : Word),
    new = ((s.pc &&& 0xF0000000#32) ||| (target.setWidth 32 <<< 2)) →
    (new.toNat < s.cfg.memorySize → exec (.j target) s = .next { s with pc := new, next := none }) ∧
      (s.cfg.memorySize ≤ new.toNat →
        ∃ t, exec (.j target) s = .next t ∧ t.run = .halted ∧
          ∃ f, t.fault = some f ∧ f.kind = .addressError ∧ f.addr = new)

/-- JAL links `pc + 4` in register 31 and jumps; when the target faults the link stays written (43_control_transfer.md section 2;
the register number is general knowledge, D1, log 2; the fault in the same step is D13, log 10). -/
def Obligations.JalLinksAndJumps : Prop :=
  ∀ (target : BitVec 26) (s : State) (new : Word),
    new = ((s.pc &&& 0xF0000000#32) ||| (target.setWidth 32 <<< 2)) →
    (new.toNat < s.cfg.memorySize →
      ∃ t, exec (.jal target) s = .next t ∧ t.pc = new ∧ t.next = none ∧
        (∀ r, readReg r t = if r = 31#5 then s.pc + 4#32 else readReg r s) ∧
        { t with regs := s.regs, pc := s.pc, next := s.next } = s) ∧
      (s.cfg.memorySize ≤ new.toNat →
        ∃ t, exec (.jal target) s = .next t ∧ t.pc = s.pc ∧ t.next = none ∧ t.run = .halted ∧
          t.fault = some { kind := .addressError, pc := s.pc, addr := new } ∧
          (∀ r, readReg r t = if r = 31#5 then s.pc + 4#32 else readReg r s) ∧
          { t with regs := s.regs, next := s.next, run := s.run, fault := s.fault } = s)

/-- 43_control_transfer.md R180: the branch target is `pc + 4` plus four times the signed immediate, mod 2^32; the displacement of an
encodable immediate is in `[-131072, +131068]`; it is a multiple of 4 when `pc` is; immediate 0 gives `pc + 4` and immediate
-1 gives `pc`. -/
def Obligations.BranchTargetIsPcRelative : Prop :=
  ∀ pc imm : Word, branchTarget pc imm = BitVec.ofInt 32 ((pc.toNat : Int) + 4 + 4 * imm.toInt) ∧
    (ImmFits imm → -131072 ≤ 4 * imm.toInt ∧ 4 * imm.toInt ≤ 131068) ∧
    (pc.toNat % 4 = 0 → (branchTarget pc imm).toNat % 4 = 0) ∧ branchTarget pc 0#32 = pc + 4#32 ∧
    branchTarget pc 0xFFFFFFFF#32 = pc

/-- 43_control_transfer.md R183: the jump target is a multiple of 4 in the 256-MiB region of the jump itself, with `target26` as the
bits below; while the PC is below 2^28 it is `target26 << 2`. -/
def Obligations.JumpTargetStaysInItsRegion : Prop :=
  ∀ (pc : Word) (target : BitVec 26),
    (jumpTarget pc target).toNat = pc.toNat / 2 ^ 28 * 2 ^ 28 + 4 * target.toNat ∧
      (jumpTarget pc target).toNat % 4 = 0 ∧ (jumpTarget pc target).toNat / 2 ^ 28 = pc.toNat / 2 ^ 28 ∧
      (∀ c : Config, c.memorySize ≤ 2 ^ 28 → pc.toNat < c.memorySize → jumpTarget pc target = target.setWidth 32 <<< 2)

/-! ### System -/

/-- HALT ends the step at the transition: nothing but the run state changes. With the switch on, the PC update follows
(44_system.md section HALT; that the switch is off by default is the spec's decision D9, log 9; the
record and the kept PC of the fault are D12 and D13, log 10). -/
def Obligations.HaltHaltsWithoutAFault : Prop :=
  ∀ s : State,
    (s.cfg.haltAdvancesPc = false → exec .halt s = .next { s with run := .halted }) ∧
      (s.cfg.haltAdvancesPc = true → s.next = none →
        ((s.pc + 4#32).toNat < s.cfg.memorySize → exec .halt s = .next { s with run := .halted, pc := s.pc + 4#32 }) ∧
          (s.cfg.memorySize ≤ (s.pc + 4#32).toNat →
            exec .halt s = .next { s with
              run := .halted, fault := some { kind := .addressError, pc := s.pc, addr := s.pc + 4#32 } }))

/-- CACHECTL changes nothing but the PC (44_system.md section CACHECTL; the spec's decision D28, log 18). -/
def Obligations.CachectlOnlyAdvances : Prop :=
  ∀ s : State, s.next = none → (s.pc + 4#32).toNat < s.cfg.memorySize →
    exec .cachectl s = .next { s with pc := s.pc + 4#32 }

/-! ### Frames -/

/-- The frame of the ten instructions that reach no data: ADD, SUB, SLT (destination `rd`), ADDI (`rt`), JAL (`x[31]`), BEQ, BNE,
J, CACHECTL, HALT (no register). Every other register, every byte of memory, the cache, the I/O side and the counters are
unchanged; the run state and the fault record change only by HALT or by the AddressError of the PC update (10_state.md R23,
R31; 60_exceptions.md R207; the spec's decisions D1 for `x[31]`, log 2, D9, log 9, D12 and D13, log 10, and D28, log 18). -/
def Obligations.RegisterOnlyFormsFrame : Prop :=
  ∀ (i : Instr) (s t : State), (∀ rs rt imm, i ≠ .lw rs rt imm ∧ i ≠ .sw rs rt imm) → exec i s = .next t →
    (∀ r, destReg i ≠ some r → readReg r t = readReg r s) ∧
      (∀ x, Memory.read t.mem x = Memory.read s.mem x) ∧
      { t with regs := s.regs, pc := s.pc, next := s.next, run := s.run, fault := s.fault } = s ∧
      ((t.run = s.run ∧ t.fault = s.fault) ∨ (i = .halt ∧ t.run = .halted ∧ t.fault = s.fault) ∨
        (t.run = .halted ∧ ∃ addr, t.fault = some { kind := .addressError, pc := s.pc, addr := addr }))

/-- The frame of LW: every register but `rt`, every byte of memory, the I/O registers, the output sequence, the completion
record, the write counters and the enable flag are unchanged (10_state.md R23; 20_memory.md R57; the record and the kept PC of
a fault are the spec's decisions D12 and D13, log 10). -/
def Obligations.LwFrame : Prop :=
  ∀ (rs rt : RegIdx) (imm : Word) (s t : State), exec (.lw rs rt imm) s = .next t →
    (∀ r, r ≠ rt → readReg r t = readReg r s) ∧ (∀ x, Memory.read t.mem x = Memory.read s.mem x) ∧
      t.cfg = s.cfg ∧ t.io = s.io ∧ t.outLog = s.outLog ∧ t.completion = s.completion ∧ t.memWrites = s.memWrites ∧
      t.ioWrites = s.ioWrites ∧ t.cacheEnabled = s.cacheEnabled ∧
      ((t.run = s.run ∧ t.fault = s.fault) ∨
        (t.run = .halted ∧ t.pc = s.pc ∧ ∃ k addr, t.fault = some { kind := k, pc := s.pc, addr := addr }))

/-- The frame of SW: every register, and every byte of memory outside the four at the effective address; when the address is
not a word of memory, every byte. The memory's canonical form is part of the invariant (10_state.md R23; 20_memory.md R61,
R81; the spec's decisions D7, D8, D12 and D13, logs 11, 12 and 10). -/
def Obligations.SwFrame : Prop :=
  ∀ (rs rt : RegIdx) (imm : Word) (s t : State), Memory.wf s.mem = true → exec (.sw rs rt imm) s = .next t →
    (∀ r, readReg r t = readReg r s) ∧
      (∀ a, effectiveAddress rs imm s = a →
        (∀ x, x < a.toNat ∨ a.toNat + 4 ≤ x → Memory.read t.mem x = Memory.read s.mem x) ∧
          ((a.toNat % 4 ≠ 0 ∨ s.cfg.memorySize < a.toNat + 4 ∨ s.cfg.ioBase ≤ a.toNat) → t.mem = s.mem) ∧
          (a.toNat < s.cfg.ioBase → t.io = s.io ∧ t.outLog = s.outLog ∧ t.completion = s.completion)) ∧
      t.cfg = s.cfg ∧ t.regs = s.regs ∧ t.memReads = s.memReads ∧ t.ioReads = s.ioReads ∧
      t.cacheEnabled = s.cacheEnabled ∧
      ((t.run = s.run ∧ t.fault = s.fault) ∨
        (t.run = .halted ∧ t.pc = s.pc ∧ ∃ k addr, t.fault = some { kind := k, pc := s.pc, addr := addr }))

/-- Only SW writes: a step that is not an SW leaves memory, the I/O registers, the output sequence, completion and the write
counters as they were (10_state.md R34; 20_memory.md R51; the spec's decisions D8, D14 and D18, logs 12, 14 and 13). -/
def Obligations.OnlySwWritesMemoryOrIo : Prop :=
  ∀ s t : State, s.Inv → step s = .next t →
    (s.run = .running ∧ ∃ rs rt imm, decode (backRead s.mem s.pc.toNat) = .ok (.sw rs rt imm)) ∨
      (t.mem = s.mem ∧ t.io = s.io ∧ t.outLog = s.outLog ∧ t.completion = s.completion ∧ t.memWrites = s.memWrites ∧
        t.ioWrites = s.ioWrites)

/-- 10_state.md R21: `x[0]` reads 0, a write to it has no effect, and no step makes it hold anything but 0. -/
def Obligations.RegisterZeroStaysZero : Prop :=
  (∀ s : State, readReg 0#5 s = 0#32) ∧ (∀ (v : Word) (s : State), writeReg 0#5 v s = s) ∧
    ∀ s t : State, s.regs[0] = 0#32 → step s = .next t → t.regs[0] = 0#32

/-! ### Reset and the host's operations -/

/-- What machine build leaves, for every configuration that is legal: the CPU at the values of 10_state.md R42 (that `$sp` is
register 29 is general knowledge, D1, log 2) and the bus and cache at those of R41 (zero memory, enabled cache, zero counters
and registers are the spec's decisions D5, D6 and D18, logs 3, 6 and 13). `State.reset` is the build of the standard
configuration, which is the model's choice (log 1). -/
def Obligations.BuildLeavesTheResetValues : Prop :=
  (∀ c : Config, c.Legal →
    ∃ s, buildMachine c = .next s ∧ s.cfg = c ∧ s.pc = 0#32 ∧ s.next = none ∧ s.run = .running ∧ s.fault = none ∧
      (∀ r, readReg r s = if r = 29#5 then 0x7FFFFFFF#32 else 0#32) ∧ (∀ a, Memory.read s.mem a = 0#8) ∧
      (∀ l ∈ s.lines, l.valid = false) ∧ s.lines.length = c.numLines ∧ s.cacheEnabled = c.cacheEnabledAtReset ∧
      getStats s = ⟨0, 0, 0, 0, 0, 0, 0⟩ ∧ s.io = ⟨c.inputValue, 0#32, 0#32⟩ ∧ s.outLog = [] ∧ s.completion = none) ∧
    buildMachine Config.standard = .next State.reset

/-- An illegal configuration is a ConfigurationError at build and no machine exists (60_exceptions.md R204; which configurations
are legal is 00_scope.md R6 and R7, the spec's decisions D2, D3 and D4, log 28). -/
def Obligations.IllegalConfigurationBuildsNothing : Prop :=
  ∀ c : Config, buildMachine c = .fault .configurationError ↔
    ¬((∃ k, c.lineSize = 2 ^ k) ∧ 4 ≤ c.lineSize ∧ (∃ k, c.cacheSize = 2 ^ k) ∧ c.lineSize ≤ c.cacheSize ∧
      c.cacheSize ≤ 2 ^ 31 ∧ 0 < c.memorySize ∧ c.memorySize % 4 = 0 ∧ c.memorySize % c.lineSize = 0 ∧
      c.memorySize ≤ c.ioBase ∧ c.ioBase % 4 = 0 ∧ c.ioBase + 12 ≤ 2 ^ 32)

/-- CPU reset sets what the CPU owns and nothing else; `Clear()` resets memory, cache lines and counters and nothing else
(70_reset_and_hazards.md Table Z; 20_memory.md R93; the spec's decisions D19 and D26, log 25; that `$sp` is register 29 is
general knowledge, D1, log 2). -/
def Obligations.ResettingOperationsAreIndependent : Prop :=
  (∀ s : State,
    (∀ r, readReg r (cpuReset s) = if r = 29#5 then 0x7FFFFFFF#32 else 0#32) ∧ (cpuReset s).pc = 0#32 ∧
      (cpuReset s).next = none ∧ (cpuReset s).run = .running ∧ (cpuReset s).fault = none ∧
      { cpuReset s with regs := s.regs, pc := s.pc, next := s.next, run := s.run, fault := s.fault } = s) ∧
    ∀ s : State,
      (∀ a, Memory.read (clearBus s).mem a = 0#8) ∧ (∀ l ∈ (clearBus s).lines, l.valid = false) ∧
        getStats (clearBus s) = ⟨0, 0, 0, 0, 0, 0, 0⟩ ∧
        { clearBus s with
          mem := s.mem, lines := s.lines, hits := s.hits, misses := s.misses, memReads := s.memReads
          memWrites := s.memWrites, ioReads := s.ioReads, ioWrites := s.ioWrites } = s

/-- `LoadProgram` writes the bytes as given, leaves every other byte, invalidates every line and changes nothing else; one that
would exceed the memory fails: it answers an error to the host and changes nothing (20_memory.md R90, 60_exceptions.md R223;
the spec's decision D21, log 24). -/
def Obligations.LoadProgramPlacesTheBytes : Prop :=
  ∀ (bytes : List Byte) (base : Word) (s : State), Memory.wf s.mem = true →
    (base.toNat + bytes.length ≤ s.cfg.memorySize →
      ∃ t, loadProgram bytes base s = .ok t ∧
        (∀ k, k < bytes.length → Memory.read t.mem (base.toNat + k) = bytes.getD k 0#8) ∧
        (∀ x, x < base.toNat ∨ base.toNat + bytes.length ≤ x → Memory.read t.mem x = Memory.read s.mem x) ∧
        (∀ l ∈ t.lines, l.valid = false) ∧ { t with mem := s.mem, lines := s.lines } = s) ∧
      (s.cfg.memorySize < base.toNat + bytes.length →
        (∃ e, loadProgram bytes base s = .error e) ∧ applyHostOp (.loadProgram bytes base) s = s)

/-- `LoadWords` of a map with distinct aligned addresses inside the memory stores each word big-endian, leaves every other byte
and invalidates every line; with one misaligned or out-of-range address it fails: it answers an error to the host and changes
nothing (20_memory.md R91, 60_exceptions.md R223; the spec's decisions D20 and D21, log 24). -/
def Obligations.LoadWordsStoresTheMap : Prop :=
  ∀ (ws : List (Word × Word)) (s : State), Memory.wf s.mem = true →
    ((∀ p ∈ ws, p.1.toNat % 4 = 0 ∧ p.1.toNat + 4 ≤ s.cfg.memorySize) → (ws.map Prod.fst).Nodup →
      ∃ t, loadWords ws s = .ok t ∧ (∀ p ∈ ws, backRead t.mem p.1.toNat = p.2) ∧
        (∀ x, (∀ p ∈ ws, x < p.1.toNat ∨ p.1.toNat + 4 ≤ x) → Memory.read t.mem x = Memory.read s.mem x) ∧
        (∀ l ∈ t.lines, l.valid = false) ∧ { t with mem := s.mem, lines := s.lines } = s) ∧
      ((∃ p ∈ ws, ¬(p.1.toNat % 4 = 0 ∧ p.1.toNat + 4 ≤ s.cfg.memorySize)) →
        (∃ e, loadWords ws s = .error e) ∧ applyHostOp (.loadWords ws) s = s)

/-- 20_memory.md R78: disabling clears the flag and invalidates everything, enabling changes only the flag, the counters are
untouched; so after off and on no address is resident. -/
def Obligations.TogglingTheCacheInvalidatesIt : Prop :=
  ∀ s : State,
    ((cacheToggle false s).cacheEnabled = false ∧ (∀ l ∈ (cacheToggle false s).lines, l.valid = false) ∧
      { cacheToggle false s with cacheEnabled := s.cacheEnabled, lines := s.lines } = s) ∧
      cacheToggle true s = { s with cacheEnabled := true } ∧
      ∀ (t : State) (a : Word), t.lines = (cacheToggle false s).lines → ¬Resident (cacheToggle true t) a

/-- 20_memory.md R77: every line is made invalid and nothing else changes, counters and flag included. -/
def Obligations.InvalidateAllClearsEveryValidBit : Prop :=
  ∀ s : State,
    (∀ i, (lineAt (cacheInvalidateAll s) i).valid = false ∧ (lineAt (cacheInvalidateAll s) i).tag = (lineAt s i).tag ∧
      (lineAt (cacheInvalidateAll s) i).data = (lineAt s i).data) ∧
      { cacheInvalidateAll s with lines := s.lines } = s

/-- The exact ratio, 0 before any access; reads and writes of an enabled cache feed the two counters, those of a disabled one feed
neither, invalidation, flush and toggle change neither, and of all the host's commands only `Clear` resets them (20_memory.md
section 5; that a write hit counts is the spec's decision D15, log 15). -/
def Obligations.HitRateIsTheExactRatio : Prop :=
  ∀ s : State,
    (s.hits + s.misses = 0 → hitRate s = 0) ∧
      (s.hits + s.misses ≠ 0 → hitRate s * ((s.hits : Rat) + (s.misses : Rat)) = (s.hits : Rat)) ∧
      (∀ a v : Word, s.cacheEnabled = true →
        (((cacheRead a s).2.hits = s.hits + 1 ∧ (cacheRead a s).2.misses = s.misses) ∨
            ((cacheRead a s).2.hits = s.hits ∧ (cacheRead a s).2.misses = s.misses + 1)) ∧
          (((cacheWrite a v s).hits = s.hits + 1 ∧ (cacheWrite a v s).misses = s.misses) ∨
            ((cacheWrite a v s).hits = s.hits ∧ (cacheWrite a v s).misses = s.misses + 1))) ∧
      (∀ a v : Word, s.cacheEnabled = false →
        (cacheRead a s).2.hits = s.hits ∧ (cacheRead a s).2.misses = s.misses ∧ (cacheWrite a v s).hits = s.hits ∧
          (cacheWrite a v s).misses = s.misses) ∧
      (∀ (a : Word) (e : Bool),
        (cacheInvalidate a s).hits = s.hits ∧ (cacheInvalidate a s).misses = s.misses ∧
          (cacheInvalidateAll s).hits = s.hits ∧ (cacheInvalidateAll s).misses = s.misses ∧
          (cacheToggle e s).hits = s.hits ∧ (cacheToggle e s).misses = s.misses) ∧
      (clearBus s).hits = 0 ∧ (clearBus s).misses = 0 ∧
      ∀ op : HostOp, op ≠ .clear → s.hits ≤ (applyHostOp op s).hits ∧ s.misses ≤ (applyHostOp op s).misses

/-! ### The cache and the bus -/

/-- 20_memory.md R53: the four bytes of a stored word and the value of a read word, most significant byte first, in memory and
inside a cache line. -/
def Obligations.WordsAreBigEndian : Prop :=
  (∀ (m : Memory) (a : Nat) (v : Word), Memory.wf m = true →
      Memory.read (backWrite m a v) a = v.extractLsb' 24 8 ∧ Memory.read (backWrite m a v) (a + 1) = v.extractLsb' 16 8 ∧
        Memory.read (backWrite m a v) (a + 2) = v.extractLsb' 8 8 ∧
        Memory.read (backWrite m a v) (a + 3) = v.extractLsb' 0 8) ∧
    (∀ (m : Memory) (a : Nat), (backRead m a).toNat =
      (Memory.read m a).toNat * 2 ^ 24 + (Memory.read m (a + 1)).toNat * 2 ^ 16 + (Memory.read m (a + 2)).toNat * 2 ^ 8 +
        (Memory.read m (a + 3)).toNat) ∧
    ∀ (l : CacheLine) (off : Nat), (lineWord l off).toNat =
      (l.data.getD off 0#8).toNat * 2 ^ 24 + (l.data.getD (off + 1) 0#8).toNat * 2 ^ 16 +
        (l.data.getD (off + 2) 0#8).toNat * 2 ^ 8 + (l.data.getD (off + 3) 0#8).toNat

/-- The three fields of an address fit their widths and put it together again, for every legal geometry (20_memory.md R71, R80;
00_scope.md R7). -/
def Obligations.AddressSplitIsExact : Prop :=
  ∀ c : Config, c.GeometryLegal →
    c.offsetBits + c.indexBits + c.tagBits = 32 ∧ 1 ≤ c.tagBits ∧ c.numLines * c.lineSize = c.cacheSize ∧
      ∀ a : Word, cacheOffset c a < c.lineSize ∧ cacheIndex c a < c.numLines ∧ (cacheTag c a).toNat < 2 ^ c.tagBits ∧
        cacheOffset c a = a.toNat % 2 ^ c.offsetBits ∧
        cacheIndex c a = a.toNat / 2 ^ c.offsetBits % 2 ^ c.indexBits ∧
        (cacheTag c a).toNat = a.toNat / 2 ^ (c.offsetBits + c.indexBits) ∧
        lineBase c (cacheTag c a) (cacheIndex c a) + cacheOffset c a = a.toNat

/-- A read leaves its address resident, so an immediate repeat is a hit that changes no line and returns the same word; a first
read is a miss exactly when the address was not resident (20_memory.md section 5 and 95_test_vectors.md S3). -/
def Obligations.RepeatedReadHits : Prop :=
  ∀ (s : State) (a : Word), s.BusInv → s.cacheEnabled = true → a.toNat % 4 = 0 → a.toNat < s.cfg.memorySize →
    Resident (cacheRead a s).2 a ∧
      (Resident s a → (cacheRead a s).2.hits = s.hits + 1 ∧ (cacheRead a s).2.misses = s.misses) ∧
      (¬Resident s a → (cacheRead a s).2.hits = s.hits ∧ (cacheRead a s).2.misses = s.misses + 1) ∧
      (cacheRead a (cacheRead a s).2).1 = (cacheRead a s).1 ∧
      (cacheRead a (cacheRead a s).2).2 = { (cacheRead a s).2 with hits := (cacheRead a s).2.hits + 1 }

/-- A write miss allocates nothing and leaves every line as it was; a write hit keeps the line resident; either way memory has
the word (20_memory.md section 5, R75; that a write hit counts is the spec's decision D15, log 15). -/
def Obligations.WritesGoThroughAndAllocateNothing : Prop :=
  ∀ (s : State) (a v : Word), s.BusInv → s.cacheEnabled = true → a.toNat % 4 = 0 → a.toNat < s.cfg.memorySize →
    backRead (cacheWrite a v s).mem a.toNat = v ∧
      (¬Resident s a → (cacheWrite a v s).lines = s.lines ∧ (cacheWrite a v s).misses = s.misses + 1 ∧
        (cacheWrite a v s).hits = s.hits) ∧
      (Resident s a → Resident (cacheWrite a v s) a ∧ (cacheWrite a v s).hits = s.hits + 1 ∧
        (cacheWrite a v s).misses = s.misses ∧
        lineWord (lineOf (cacheWrite a v s) a) (cacheOffset s.cfg a) = v ∧
        ∀ i, i ≠ cacheIndex s.cfg a → lineAt (cacheWrite a v s) i = lineAt s i)

/-- The transparency law: in a coherent state a bus read of a word of memory returns the memory's word, and after a bus write
memory holds the written word, every other byte is as before, and a read returns it, whatever the cache does (20_memory.md
R81, which the spec marks as derived). -/
def Obligations.CacheNeverChangesMemorySemantics : Prop :=
  ∀ (s : State) (a v : Word), s.BusInv → a.toNat % 4 = 0 → a.toNat < s.cfg.memorySize →
    (∃ t, memRead a s = .ok (backRead s.mem a.toNat, t) ∧ t.mem = s.mem ∧ t.BusInv) ∧
      ∃ t, memWrite a v s = .ok t ∧ backRead t.mem a.toNat = v ∧
        (∀ x, x < a.toNat ∨ a.toNat + 4 ≤ x → Memory.read t.mem x = Memory.read s.mem x) ∧ t.BusInv ∧
        ∃ u, memRead a t = .ok (v, u)

/-! ### Invariants and whole-machine rules -/

/-- The state after reset meets the invariant (10_state.md R26, R44; the configuration is log 1). -/
def Obligations.ResetMeetsTheInvariant : Prop := State.reset.Inv

/-- Every step keeps the invariant: legal configuration, register 0 zero, the PC aligned and in bounds, the latch empty, the
fault record right, the memory canonical and inside its bound, every valid line coherent (10_state.md R26, R28, R30, R44;
20_memory.md R80; the record and the kept PC are the spec's decisions D12 and D13, log 10, and the empty latch D34, log 22). -/
def Obligations.StepKeepsTheInvariant : Prop :=
  ∀ s t : State, s.Inv → step s = .next t → t.Inv

/-- Every command of the host keeps the invariant, so it holds between any two operations on a machine (10_state.md section 9;
20_memory.md R80, R94). -/
def Obligations.HostCommandsKeepTheInvariant : Prop :=
  ∀ (op : HostOp) (s : State), s.Inv → (applyHostOp op s).Inv

/-- 10_state.md R44: the source's four invariants, in every state that a machine build and any sequence of host commands and
steps can reach. -/
def Obligations.EveryReachableStateMeetsTheSourceInvariants : Prop :=
  ∀ s : State, Reachable s →
    s.regs[0] = 0#32 ∧ s.pc.toNat % 4 = 0 ∧ s.pc.toNat < s.cfg.memorySize ∧
      (∀ i, i < s.cfg.numLines → LineCoherent s i) ∧
      s.cfg.offsetBits + s.cfg.indexBits + s.cfg.tagBits = 32 ∧ s.cfg.cacheSize = s.cfg.numLines * s.cfg.lineSize ∧
      s.cfg.lineSize = 2 ^ s.cfg.offsetBits ∧ s.cfg.numLines = 2 ^ s.cfg.indexBits

/-- A program cannot see the cache: two machines that differ only in lines, enable flag, hits and misses do the same step and
still differ in nothing else (20_memory.md R70, R81; 10_state.md R37). -/
def Obligations.ProgramsCannotObserveTheCache : Prop :=
  ∀ s t s' t' : State, s.Inv → t.Inv → SameButCache s t → step s = .next s' → step t = .next t' → SameButCache s' t'

/-- The configuration never changes and no counter decreases but by `Clear`, whatever the host or a step does (10_state.md R36,
R45; counters are unbounded by the spec's reading, log 14). -/
def Obligations.CountersOnlyGrow : Prop :=
  ∀ (op : HostOp) (s : State),
    (applyHostOp op s).cfg = s.cfg ∧
      (op ≠ .clear →
        s.hits ≤ (applyHostOp op s).hits ∧ s.misses ≤ (applyHostOp op s).misses ∧
          s.memReads ≤ (applyHostOp op s).memReads ∧ s.memWrites ≤ (applyHostOp op s).memWrites ∧
          s.ioReads ≤ (applyHostOp op s).ioReads ∧ s.ioWrites ≤ (applyHostOp op s).ioWrites ∧
          ∃ new, (applyHostOp op s).outLog = s.outLog ++ new)
end

