-- ==== Sys2Proof/Laws/Memory.lean ====
section
/-! SUPPORT. The byte memory: read after write, the canonical form, and words in it. -/

namespace Sys2Proof.Machine

/-- Below the canonical form's bound every address reads 0. -/
theorem Memory.read_below (m : Memory) (lo y : Nat) (h : Memory.wfFrom lo m = true) (hy : y < lo) : Memory.read m y = 0#8 := by
  induction m generalizing lo with
  | nil => rfl
  | cons d m ih =>
    simp only [Memory.wfFrom, Bool.and_eq_true, decide_eq_true_eq] at h
    rw [Memory.read, if_neg (by omega)]
    exact ih _ h.2 (by omega)

/-- Read after write: the written byte at its address, the old byte everywhere else. -/
theorem Memory.read_write (m : Memory) (a x : Nat) (b : Byte) (lo : Nat) (h : Memory.wfFrom lo m = true) :
    Memory.read (Memory.write m a b) x = if x = a then b else Memory.read m x := by
  induction m generalizing lo with
  | nil =>
    rcases eq_or_ne x a with hx | hx <;> by_cases hb : b = 0#8 <;> simp [Memory.write, Memory.read, hb, hx]
    exact fun h => absurd h.symm hx
  | cons c m ih =>
    obtain ⟨k, c⟩ := c
    simp only [Memory.wfFrom, Bool.and_eq_true, decide_eq_true_eq] at h
    simp only [Memory.write]
    by_cases h1 : a < k
    · by_cases hb : b = 0#8
      · by_cases hx : x = a
        · subst hx
          rw [if_pos h1, if_pos hb, if_pos rfl, Memory.read, if_neg (by omega), hb]
          exact Memory.read_below m _ x h.2 (by omega)
        · simp [h1, hb, hx]
      · simp only [h1, hb, if_true, if_false, Memory.read, eq_comm (a := a)]
    · by_cases h2 : a = k
      · by_cases hb : b = 0#8
        · rw [if_neg h1, if_pos h2, if_pos hb]
          by_cases hx : x = a
          · rw [if_pos hx, hb]; exact Memory.read_below m _ x h.2 (by omega)
          · rw [if_neg hx, Memory.read, if_neg (by omega)]
        · rw [if_neg h1, if_pos h2, if_neg hb]
          by_cases hx : x = a
          · rw [if_pos hx, Memory.read, if_pos hx.symm]
          · rw [if_neg hx, Memory.read, Memory.read, if_neg (by omega), if_neg (by omega)]
      · rw [if_neg h1, if_neg h2, Memory.read, Memory.read, ih _ h.2]
        by_cases hk : k = x
        · rw [if_pos hk, if_pos hk, if_neg (by omega)]
        · rw [if_neg hk, if_neg hk]

/-- A write at or above the bound keeps the canonical form. -/
theorem Memory.wfFrom_write (m : Memory) (a : Nat) (b : Byte) (lo : Nat) (h : Memory.wfFrom lo m = true) (ha : lo ≤ a) :
    Memory.wfFrom lo (Memory.write m a b) = true := by
  induction m generalizing lo with
  | nil => by_cases hb : b = 0#8 <;> simp [Memory.write, Memory.wfFrom, hb, ha]
  | cons c m ih =>
    obtain ⟨k, c⟩ := c
    have h' := h
    simp only [Memory.wfFrom, Bool.and_eq_true, decide_eq_true_eq] at h
    simp only [Memory.write]
    by_cases h1 : a < k
    · by_cases hb : b = 0#8
      · simpa [h1, hb] using h'
      · simp [h1, hb, Memory.wfFrom, ha, h.1.2, h.2, Nat.succ_le_of_lt h1]
    · by_cases h2 : a = k
      · by_cases hb : b = 0#8
        · simp only [h2, hb, if_true]
          have weaken : ∀ (m : Memory) (p q : Nat), p ≤ q → Memory.wfFrom q m = true → Memory.wfFrom p m = true := by
            intro m p q hpq hm
            cases m with
            | nil => rfl
            | cons d m =>
              simp only [Memory.wfFrom, Bool.and_eq_true, decide_eq_true_eq] at hm ⊢
              exact ⟨⟨by omega, hm.1.2⟩, hm.2⟩
          simpa [h2] using weaken m lo (k + 1) (by omega) h.2
        · subst h2; simp [hb, Memory.wfFrom, ha, h.2]
      · simp [h1, h2, Memory.wfFrom, h.1.1, h.1.2, ih _ h.2 (by omega : k + 1 ≤ a)]

/-- Every write keeps the canonical form. -/
theorem Memory.wf_write (m : Memory) (a : Nat) (b : Byte) (h : Memory.wf m = true) : Memory.wf (Memory.write m a b) = true :=
  Memory.wfFrom_write m a b 0 h (Nat.zero_le a)

/-- The cells after a write are old ones, or the written one. -/
theorem Memory.mem_write (m : Memory) (a : Nat) (b : Byte) (c : Host.Cell) (h : c ∈ Memory.write m a b) :
    c ∈ m ∨ c = (a, b) := by
  induction m with
  | nil => by_cases hb : b = 0#8 <;> simp_all [Memory.write]
  | cons d m ih =>
    obtain ⟨k, d⟩ := d
    simp only [Memory.write] at h
    split at h
    · split at h
      · exact .inl h
      · rcases List.mem_cons.mp h with h | h
        · exact .inr h
        · exact .inl h
    · split at h
      · split at h
        · exact .inl (List.mem_cons_of_mem _ h)
        · rcases List.mem_cons.mp h with h | h
          · exact .inr h
          · exact .inl (List.mem_cons_of_mem _ h)
      · rcases List.mem_cons.mp h with h | h
        · exact .inl (h ▸ List.mem_cons_self ..)
        · exact (ih h).imp (List.mem_cons_of_mem _) id

/-- The bytes of a word written are the word read: `BE32(Bytes(v)) = v` (20_memory.md R53). -/
@[simp] theorem be32_wordBytes (v : Word) : be32 (wordByte v 0) (wordByte v 1) (wordByte v 2) (wordByte v 3) = v := by
  unfold be32 wordByte
  ext i hi
  simp only [BitVec.getElem_append, BitVec.getElem_extractLsb']
  split
  · simp; rw [BitVec.getLsbD_eq_getElem (by omega)]
  · split
    · simp; rw [BitVec.getLsbD_eq_getElem (by omega)]; congr 1; omega
    · split
      · simp; rw [BitVec.getLsbD_eq_getElem (by omega)]; congr 1; omega
      · simp; rw [BitVec.getLsbD_eq_getElem (by omega)]; congr 1; omega

/-- `BackWrite` keeps the canonical form. -/
theorem wf_backWrite (m : Memory) (a : Nat) (v : Word) (h : Memory.wf m = true) : Memory.wf (backWrite m a v) = true := by
  unfold backWrite
  exact Memory.wf_write _ _ _ (Memory.wf_write _ _ _ (Memory.wf_write _ _ _ (Memory.wf_write _ _ _ h)))

/-- Every byte after `BackWrite`: the four bytes of the word at its address, the old bytes elsewhere (20_memory.md R73). -/
theorem read_backWrite (m : Memory) (a x : Nat) (v : Word) (h : Memory.wf m = true) :
    Memory.read (backWrite m a v) x =
      if x = a + 3 then wordByte v 3 else if x = a + 2 then wordByte v 2 else if x = a + 1 then wordByte v 1
      else if x = a then wordByte v 0 else Memory.read m x := by
  have h0 := Memory.wf_write m a (wordByte v 0) h
  have h1 := Memory.wf_write _ (a + 1) (wordByte v 1) h0
  have h2 := Memory.wf_write _ (a + 2) (wordByte v 2) h1
  unfold backWrite
  rw [Memory.read_write _ _ _ _ 0 h2, Memory.read_write _ _ _ _ 0 h1, Memory.read_write _ _ _ _ 0 h0,
    Memory.read_write _ _ _ _ 0 h]

/-- A byte outside the written word keeps its value (20_memory.md R81). -/
theorem read_backWrite_outside (m : Memory) (a x : Nat) (v : Word) (h : Memory.wf m = true) (hx : x < a ∨ a + 4 ≤ x) :
    Memory.read (backWrite m a v) x = Memory.read m x := by
  rw [read_backWrite m a x v h, if_neg (by omega), if_neg (by omega), if_neg (by omega), if_neg (by omega)]

/-- The word written is the word read (20_memory.md R81). -/
theorem backRead_backWrite (m : Memory) (a : Nat) (v : Word) (h : Memory.wf m = true) :
    backRead (backWrite m a v) a = v := by
  simp [backRead, read_backWrite _ _ _ _ h]

/-- A write inside a bound keeps every cell inside it (10_state.md R34). -/
theorem Memory.inside_write (m : Memory) (a n : Nat) (b : Byte) (h : ∀ c ∈ m, c.1 < n) (ha : a < n) :
    ∀ c ∈ Memory.write m a b, c.1 < n := fun c hc =>
  (Memory.mem_write m a b c hc).elim (h c) fun hab => hab ▸ ha

/-- `BackWrite` inside a bound keeps every cell inside it. -/
theorem inside_backWrite (m : Memory) (a n : Nat) (v : Word) (h : ∀ c ∈ m, c.1 < n) (ha : a + 4 ≤ n) :
    ∀ c ∈ backWrite m a v, c.1 < n := by
  have h0 := Memory.inside_write m a n (wordByte v 0) h (by omega)
  have h1 := Memory.inside_write _ (a + 1) n (wordByte v 1) h0 (by omega)
  have h2 := Memory.inside_write _ (a + 2) n (wordByte v 2) h1 (by omega)
  exact Memory.inside_write _ (a + 3) n (wordByte v 3) h2 (by omega)

end Sys2Proof.Machine
end

