-- ==== Sys2Proof/Laws/State.lean ====
section
/-! SUPPORT. What each named update does to each field of the state: one lemma a field, so that no later proof unfolds a
record update. -/

namespace Sys2Proof.Machine

/-! ### `setNext` -/

@[simp] theorem setNext_cfg (t : Word) (s : State) : (setNext t s).cfg = s.cfg := rfl
@[simp] theorem setNext_regs (t : Word) (s : State) : (setNext t s).regs = s.regs := rfl
@[simp] theorem setNext_pc (t : Word) (s : State) : (setNext t s).pc = s.pc := rfl
@[simp] theorem setNext_next (t : Word) (s : State) : (setNext t s).next = some t := rfl
@[simp] theorem setNext_run (t : Word) (s : State) : (setNext t s).run = s.run := rfl
@[simp] theorem setNext_fault (t : Word) (s : State) : (setNext t s).fault = s.fault := rfl
@[simp] theorem setNext_mem (t : Word) (s : State) : (setNext t s).mem = s.mem := rfl
@[simp] theorem setNext_io (t : Word) (s : State) : (setNext t s).io = s.io := rfl
@[simp] theorem setNext_memReads (t : Word) (s : State) : (setNext t s).memReads = s.memReads := rfl
@[simp] theorem setNext_memWrites (t : Word) (s : State) : (setNext t s).memWrites = s.memWrites := rfl
@[simp] theorem setNext_ioReads (t : Word) (s : State) : (setNext t s).ioReads = s.ioReads := rfl
@[simp] theorem setNext_ioWrites (t : Word) (s : State) : (setNext t s).ioWrites = s.ioWrites := rfl
@[simp] theorem setNext_lines (t : Word) (s : State) : (setNext t s).lines = s.lines := rfl
@[simp] theorem setNext_cacheEnabled (t : Word) (s : State) : (setNext t s).cacheEnabled = s.cacheEnabled := rfl
@[simp] theorem setNext_hits (t : Word) (s : State) : (setNext t s).hits = s.hits := rfl
@[simp] theorem setNext_misses (t : Word) (s : State) : (setNext t s).misses = s.misses := rfl
@[simp] theorem setNext_outLog (t : Word) (s : State) : (setNext t s).outLog = s.outLog := rfl
@[simp] theorem setNext_completion (t : Word) (s : State) : (setNext t s).completion = s.completion := rfl

/-! ### `beginExecute` -/

@[simp] theorem beginExecute_cfg (s : State) : (beginExecute s).cfg = s.cfg := rfl
@[simp] theorem beginExecute_regs (s : State) : (beginExecute s).regs = s.regs := rfl
@[simp] theorem beginExecute_pc (s : State) : (beginExecute s).pc = s.pc := rfl
@[simp] theorem beginExecute_next (s : State) : (beginExecute s).next = none := rfl
@[simp] theorem beginExecute_run (s : State) : (beginExecute s).run = s.run := rfl
@[simp] theorem beginExecute_fault (s : State) : (beginExecute s).fault = s.fault := rfl
@[simp] theorem beginExecute_mem (s : State) : (beginExecute s).mem = s.mem := rfl
@[simp] theorem beginExecute_io (s : State) : (beginExecute s).io = s.io := rfl
@[simp] theorem beginExecute_memReads (s : State) : (beginExecute s).memReads = s.memReads := rfl
@[simp] theorem beginExecute_memWrites (s : State) : (beginExecute s).memWrites = s.memWrites := rfl
@[simp] theorem beginExecute_ioReads (s : State) : (beginExecute s).ioReads = s.ioReads := rfl
@[simp] theorem beginExecute_ioWrites (s : State) : (beginExecute s).ioWrites = s.ioWrites := rfl
@[simp] theorem beginExecute_lines (s : State) : (beginExecute s).lines = s.lines := rfl
@[simp] theorem beginExecute_cacheEnabled (s : State) : (beginExecute s).cacheEnabled = s.cacheEnabled := rfl
@[simp] theorem beginExecute_hits (s : State) : (beginExecute s).hits = s.hits := rfl
@[simp] theorem beginExecute_misses (s : State) : (beginExecute s).misses = s.misses := rfl
@[simp] theorem beginExecute_outLog (s : State) : (beginExecute s).outLog = s.outLog := rfl
@[simp] theorem beginExecute_completion (s : State) : (beginExecute s).completion = s.completion := rfl

/-! ### `takeFault` -/

@[simp] theorem takeFault_cfg (e : Raised) (s : State) : (takeFault e s).cfg = s.cfg := rfl
@[simp] theorem takeFault_regs (e : Raised) (s : State) : (takeFault e s).regs = s.regs := rfl
@[simp] theorem takeFault_pc (e : Raised) (s : State) : (takeFault e s).pc = s.pc := rfl
@[simp] theorem takeFault_next (e : Raised) (s : State) : (takeFault e s).next = none := rfl
@[simp] theorem takeFault_run (e : Raised) (s : State) : (takeFault e s).run = .halted := rfl
@[simp] theorem takeFault_fault (e : Raised) (s : State) : (takeFault e s).fault = some { kind := e.kind, pc := s.pc, addr := e.addr } := rfl
@[simp] theorem takeFault_mem (e : Raised) (s : State) : (takeFault e s).mem = s.mem := rfl
@[simp] theorem takeFault_io (e : Raised) (s : State) : (takeFault e s).io = s.io := rfl
@[simp] theorem takeFault_memReads (e : Raised) (s : State) : (takeFault e s).memReads = s.memReads := rfl
@[simp] theorem takeFault_memWrites (e : Raised) (s : State) : (takeFault e s).memWrites = s.memWrites := rfl
@[simp] theorem takeFault_ioReads (e : Raised) (s : State) : (takeFault e s).ioReads = s.ioReads := rfl
@[simp] theorem takeFault_ioWrites (e : Raised) (s : State) : (takeFault e s).ioWrites = s.ioWrites := rfl
@[simp] theorem takeFault_lines (e : Raised) (s : State) : (takeFault e s).lines = s.lines := rfl
@[simp] theorem takeFault_cacheEnabled (e : Raised) (s : State) : (takeFault e s).cacheEnabled = s.cacheEnabled := rfl
@[simp] theorem takeFault_hits (e : Raised) (s : State) : (takeFault e s).hits = s.hits := rfl
@[simp] theorem takeFault_misses (e : Raised) (s : State) : (takeFault e s).misses = s.misses := rfl
@[simp] theorem takeFault_outLog (e : Raised) (s : State) : (takeFault e s).outLog = s.outLog := rfl
@[simp] theorem takeFault_completion (e : Raised) (s : State) : (takeFault e s).completion = s.completion := rfl

/-! ### `cpuReset` -/

@[simp] theorem cpuReset_cfg (s : State) : (cpuReset s).cfg = s.cfg := rfl
@[simp] theorem cpuReset_regs (s : State) : (cpuReset s).regs = resetRegs := rfl
@[simp] theorem cpuReset_pc (s : State) : (cpuReset s).pc = 0#32 := rfl
@[simp] theorem cpuReset_next (s : State) : (cpuReset s).next = none := rfl
@[simp] theorem cpuReset_run (s : State) : (cpuReset s).run = .running := rfl
@[simp] theorem cpuReset_fault (s : State) : (cpuReset s).fault = none := rfl
@[simp] theorem cpuReset_mem (s : State) : (cpuReset s).mem = s.mem := rfl
@[simp] theorem cpuReset_io (s : State) : (cpuReset s).io = s.io := rfl
@[simp] theorem cpuReset_memReads (s : State) : (cpuReset s).memReads = s.memReads := rfl
@[simp] theorem cpuReset_memWrites (s : State) : (cpuReset s).memWrites = s.memWrites := rfl
@[simp] theorem cpuReset_ioReads (s : State) : (cpuReset s).ioReads = s.ioReads := rfl
@[simp] theorem cpuReset_ioWrites (s : State) : (cpuReset s).ioWrites = s.ioWrites := rfl
@[simp] theorem cpuReset_lines (s : State) : (cpuReset s).lines = s.lines := rfl
@[simp] theorem cpuReset_cacheEnabled (s : State) : (cpuReset s).cacheEnabled = s.cacheEnabled := rfl
@[simp] theorem cpuReset_hits (s : State) : (cpuReset s).hits = s.hits := rfl
@[simp] theorem cpuReset_misses (s : State) : (cpuReset s).misses = s.misses := rfl
@[simp] theorem cpuReset_outLog (s : State) : (cpuReset s).outLog = s.outLog := rfl
@[simp] theorem cpuReset_completion (s : State) : (cpuReset s).completion = s.completion := rfl

/-! ### `enterHalted` -/

@[simp] theorem enterHalted_cfg (s : State) : (enterHalted s).cfg = s.cfg := rfl
@[simp] theorem enterHalted_regs (s : State) : (enterHalted s).regs = s.regs := rfl
@[simp] theorem enterHalted_pc (s : State) : (enterHalted s).pc = s.pc := rfl
@[simp] theorem enterHalted_next (s : State) : (enterHalted s).next = s.next := rfl
@[simp] theorem enterHalted_run (s : State) : (enterHalted s).run = .halted := rfl
@[simp] theorem enterHalted_fault (s : State) : (enterHalted s).fault = s.fault := rfl
@[simp] theorem enterHalted_mem (s : State) : (enterHalted s).mem = s.mem := rfl
@[simp] theorem enterHalted_io (s : State) : (enterHalted s).io = s.io := rfl
@[simp] theorem enterHalted_memReads (s : State) : (enterHalted s).memReads = s.memReads := rfl
@[simp] theorem enterHalted_memWrites (s : State) : (enterHalted s).memWrites = s.memWrites := rfl
@[simp] theorem enterHalted_ioReads (s : State) : (enterHalted s).ioReads = s.ioReads := rfl
@[simp] theorem enterHalted_ioWrites (s : State) : (enterHalted s).ioWrites = s.ioWrites := rfl
@[simp] theorem enterHalted_lines (s : State) : (enterHalted s).lines = s.lines := rfl
@[simp] theorem enterHalted_cacheEnabled (s : State) : (enterHalted s).cacheEnabled = s.cacheEnabled := rfl
@[simp] theorem enterHalted_hits (s : State) : (enterHalted s).hits = s.hits := rfl
@[simp] theorem enterHalted_misses (s : State) : (enterHalted s).misses = s.misses := rfl
@[simp] theorem enterHalted_outLog (s : State) : (enterHalted s).outLog = s.outLog := rfl
@[simp] theorem enterHalted_completion (s : State) : (enterHalted s).completion = s.completion := rfl

/-! ### `setLineOf` -/

@[simp] theorem setLineOf_cfg (a : Word) (l : CacheLine) (s : State) : (setLineOf a l s).cfg = s.cfg := rfl
@[simp] theorem setLineOf_regs (a : Word) (l : CacheLine) (s : State) : (setLineOf a l s).regs = s.regs := rfl
@[simp] theorem setLineOf_pc (a : Word) (l : CacheLine) (s : State) : (setLineOf a l s).pc = s.pc := rfl
@[simp] theorem setLineOf_next (a : Word) (l : CacheLine) (s : State) : (setLineOf a l s).next = s.next := rfl
@[simp] theorem setLineOf_run (a : Word) (l : CacheLine) (s : State) : (setLineOf a l s).run = s.run := rfl
@[simp] theorem setLineOf_fault (a : Word) (l : CacheLine) (s : State) : (setLineOf a l s).fault = s.fault := rfl
@[simp] theorem setLineOf_mem (a : Word) (l : CacheLine) (s : State) : (setLineOf a l s).mem = s.mem := rfl
@[simp] theorem setLineOf_io (a : Word) (l : CacheLine) (s : State) : (setLineOf a l s).io = s.io := rfl
@[simp] theorem setLineOf_memReads (a : Word) (l : CacheLine) (s : State) : (setLineOf a l s).memReads = s.memReads := rfl
@[simp] theorem setLineOf_memWrites (a : Word) (l : CacheLine) (s : State) : (setLineOf a l s).memWrites = s.memWrites := rfl
@[simp] theorem setLineOf_ioReads (a : Word) (l : CacheLine) (s : State) : (setLineOf a l s).ioReads = s.ioReads := rfl
@[simp] theorem setLineOf_ioWrites (a : Word) (l : CacheLine) (s : State) : (setLineOf a l s).ioWrites = s.ioWrites := rfl
@[simp] theorem setLineOf_lines (a : Word) (l : CacheLine) (s : State) : (setLineOf a l s).lines = s.lines.set (cacheIndex s.cfg a) l := rfl
@[simp] theorem setLineOf_cacheEnabled (a : Word) (l : CacheLine) (s : State) : (setLineOf a l s).cacheEnabled = s.cacheEnabled := rfl
@[simp] theorem setLineOf_hits (a : Word) (l : CacheLine) (s : State) : (setLineOf a l s).hits = s.hits := rfl
@[simp] theorem setLineOf_misses (a : Word) (l : CacheLine) (s : State) : (setLineOf a l s).misses = s.misses := rfl
@[simp] theorem setLineOf_outLog (a : Word) (l : CacheLine) (s : State) : (setLineOf a l s).outLog = s.outLog := rfl
@[simp] theorem setLineOf_completion (a : Word) (l : CacheLine) (s : State) : (setLineOf a l s).completion = s.completion := rfl

/-! ### `countHit` -/

@[simp] theorem countHit_cfg (s : State) : (countHit s).cfg = s.cfg := rfl
@[simp] theorem countHit_regs (s : State) : (countHit s).regs = s.regs := rfl
@[simp] theorem countHit_pc (s : State) : (countHit s).pc = s.pc := rfl
@[simp] theorem countHit_next (s : State) : (countHit s).next = s.next := rfl
@[simp] theorem countHit_run (s : State) : (countHit s).run = s.run := rfl
@[simp] theorem countHit_fault (s : State) : (countHit s).fault = s.fault := rfl
@[simp] theorem countHit_mem (s : State) : (countHit s).mem = s.mem := rfl
@[simp] theorem countHit_io (s : State) : (countHit s).io = s.io := rfl
@[simp] theorem countHit_memReads (s : State) : (countHit s).memReads = s.memReads := rfl
@[simp] theorem countHit_memWrites (s : State) : (countHit s).memWrites = s.memWrites := rfl
@[simp] theorem countHit_ioReads (s : State) : (countHit s).ioReads = s.ioReads := rfl
@[simp] theorem countHit_ioWrites (s : State) : (countHit s).ioWrites = s.ioWrites := rfl
@[simp] theorem countHit_lines (s : State) : (countHit s).lines = s.lines := rfl
@[simp] theorem countHit_cacheEnabled (s : State) : (countHit s).cacheEnabled = s.cacheEnabled := rfl
@[simp] theorem countHit_hits (s : State) : (countHit s).hits = s.hits + 1 := rfl
@[simp] theorem countHit_misses (s : State) : (countHit s).misses = s.misses := rfl
@[simp] theorem countHit_outLog (s : State) : (countHit s).outLog = s.outLog := rfl
@[simp] theorem countHit_completion (s : State) : (countHit s).completion = s.completion := rfl

/-! ### `countMiss` -/

@[simp] theorem countMiss_cfg (s : State) : (countMiss s).cfg = s.cfg := rfl
@[simp] theorem countMiss_regs (s : State) : (countMiss s).regs = s.regs := rfl
@[simp] theorem countMiss_pc (s : State) : (countMiss s).pc = s.pc := rfl
@[simp] theorem countMiss_next (s : State) : (countMiss s).next = s.next := rfl
@[simp] theorem countMiss_run (s : State) : (countMiss s).run = s.run := rfl
@[simp] theorem countMiss_fault (s : State) : (countMiss s).fault = s.fault := rfl
@[simp] theorem countMiss_mem (s : State) : (countMiss s).mem = s.mem := rfl
@[simp] theorem countMiss_io (s : State) : (countMiss s).io = s.io := rfl
@[simp] theorem countMiss_memReads (s : State) : (countMiss s).memReads = s.memReads := rfl
@[simp] theorem countMiss_memWrites (s : State) : (countMiss s).memWrites = s.memWrites := rfl
@[simp] theorem countMiss_ioReads (s : State) : (countMiss s).ioReads = s.ioReads := rfl
@[simp] theorem countMiss_ioWrites (s : State) : (countMiss s).ioWrites = s.ioWrites := rfl
@[simp] theorem countMiss_lines (s : State) : (countMiss s).lines = s.lines := rfl
@[simp] theorem countMiss_cacheEnabled (s : State) : (countMiss s).cacheEnabled = s.cacheEnabled := rfl
@[simp] theorem countMiss_hits (s : State) : (countMiss s).hits = s.hits := rfl
@[simp] theorem countMiss_misses (s : State) : (countMiss s).misses = s.misses + 1 := rfl
@[simp] theorem countMiss_outLog (s : State) : (countMiss s).outLog = s.outLog := rfl
@[simp] theorem countMiss_completion (s : State) : (countMiss s).completion = s.completion := rfl

/-! ### `storeWord` -/

@[simp] theorem storeWord_cfg (a v : Word) (s : State) : (storeWord a v s).cfg = s.cfg := rfl
@[simp] theorem storeWord_regs (a v : Word) (s : State) : (storeWord a v s).regs = s.regs := rfl
@[simp] theorem storeWord_pc (a v : Word) (s : State) : (storeWord a v s).pc = s.pc := rfl
@[simp] theorem storeWord_next (a v : Word) (s : State) : (storeWord a v s).next = s.next := rfl
@[simp] theorem storeWord_run (a v : Word) (s : State) : (storeWord a v s).run = s.run := rfl
@[simp] theorem storeWord_fault (a v : Word) (s : State) : (storeWord a v s).fault = s.fault := rfl
@[simp] theorem storeWord_mem (a v : Word) (s : State) : (storeWord a v s).mem = backWrite s.mem a.toNat v := rfl
@[simp] theorem storeWord_io (a v : Word) (s : State) : (storeWord a v s).io = s.io := rfl
@[simp] theorem storeWord_memReads (a v : Word) (s : State) : (storeWord a v s).memReads = s.memReads := rfl
@[simp] theorem storeWord_memWrites (a v : Word) (s : State) : (storeWord a v s).memWrites = s.memWrites := rfl
@[simp] theorem storeWord_ioReads (a v : Word) (s : State) : (storeWord a v s).ioReads = s.ioReads := rfl
@[simp] theorem storeWord_ioWrites (a v : Word) (s : State) : (storeWord a v s).ioWrites = s.ioWrites := rfl
@[simp] theorem storeWord_lines (a v : Word) (s : State) : (storeWord a v s).lines = s.lines := rfl
@[simp] theorem storeWord_cacheEnabled (a v : Word) (s : State) : (storeWord a v s).cacheEnabled = s.cacheEnabled := rfl
@[simp] theorem storeWord_hits (a v : Word) (s : State) : (storeWord a v s).hits = s.hits := rfl
@[simp] theorem storeWord_misses (a v : Word) (s : State) : (storeWord a v s).misses = s.misses := rfl
@[simp] theorem storeWord_outLog (a v : Word) (s : State) : (storeWord a v s).outLog = s.outLog := rfl
@[simp] theorem storeWord_completion (a v : Word) (s : State) : (storeWord a v s).completion = s.completion := rfl

/-! ### `countMemRead` -/

@[simp] theorem countMemRead_cfg (s : State) : (countMemRead s).cfg = s.cfg := rfl
@[simp] theorem countMemRead_regs (s : State) : (countMemRead s).regs = s.regs := rfl
@[simp] theorem countMemRead_pc (s : State) : (countMemRead s).pc = s.pc := rfl
@[simp] theorem countMemRead_next (s : State) : (countMemRead s).next = s.next := rfl
@[simp] theorem countMemRead_run (s : State) : (countMemRead s).run = s.run := rfl
@[simp] theorem countMemRead_fault (s : State) : (countMemRead s).fault = s.fault := rfl
@[simp] theorem countMemRead_mem (s : State) : (countMemRead s).mem = s.mem := rfl
@[simp] theorem countMemRead_io (s : State) : (countMemRead s).io = s.io := rfl
@[simp] theorem countMemRead_memReads (s : State) : (countMemRead s).memReads = s.memReads + 1 := rfl
@[simp] theorem countMemRead_memWrites (s : State) : (countMemRead s).memWrites = s.memWrites := rfl
@[simp] theorem countMemRead_ioReads (s : State) : (countMemRead s).ioReads = s.ioReads := rfl
@[simp] theorem countMemRead_ioWrites (s : State) : (countMemRead s).ioWrites = s.ioWrites := rfl
@[simp] theorem countMemRead_lines (s : State) : (countMemRead s).lines = s.lines := rfl
@[simp] theorem countMemRead_cacheEnabled (s : State) : (countMemRead s).cacheEnabled = s.cacheEnabled := rfl
@[simp] theorem countMemRead_hits (s : State) : (countMemRead s).hits = s.hits := rfl
@[simp] theorem countMemRead_misses (s : State) : (countMemRead s).misses = s.misses := rfl
@[simp] theorem countMemRead_outLog (s : State) : (countMemRead s).outLog = s.outLog := rfl
@[simp] theorem countMemRead_completion (s : State) : (countMemRead s).completion = s.completion := rfl

/-! ### `countMemWrite` -/

@[simp] theorem countMemWrite_cfg (s : State) : (countMemWrite s).cfg = s.cfg := rfl
@[simp] theorem countMemWrite_regs (s : State) : (countMemWrite s).regs = s.regs := rfl
@[simp] theorem countMemWrite_pc (s : State) : (countMemWrite s).pc = s.pc := rfl
@[simp] theorem countMemWrite_next (s : State) : (countMemWrite s).next = s.next := rfl
@[simp] theorem countMemWrite_run (s : State) : (countMemWrite s).run = s.run := rfl
@[simp] theorem countMemWrite_fault (s : State) : (countMemWrite s).fault = s.fault := rfl
@[simp] theorem countMemWrite_mem (s : State) : (countMemWrite s).mem = s.mem := rfl
@[simp] theorem countMemWrite_io (s : State) : (countMemWrite s).io = s.io := rfl
@[simp] theorem countMemWrite_memReads (s : State) : (countMemWrite s).memReads = s.memReads := rfl
@[simp] theorem countMemWrite_memWrites (s : State) : (countMemWrite s).memWrites = s.memWrites + 1 := rfl
@[simp] theorem countMemWrite_ioReads (s : State) : (countMemWrite s).ioReads = s.ioReads := rfl
@[simp] theorem countMemWrite_ioWrites (s : State) : (countMemWrite s).ioWrites = s.ioWrites := rfl
@[simp] theorem countMemWrite_lines (s : State) : (countMemWrite s).lines = s.lines := rfl
@[simp] theorem countMemWrite_cacheEnabled (s : State) : (countMemWrite s).cacheEnabled = s.cacheEnabled := rfl
@[simp] theorem countMemWrite_hits (s : State) : (countMemWrite s).hits = s.hits := rfl
@[simp] theorem countMemWrite_misses (s : State) : (countMemWrite s).misses = s.misses := rfl
@[simp] theorem countMemWrite_outLog (s : State) : (countMemWrite s).outLog = s.outLog := rfl
@[simp] theorem countMemWrite_completion (s : State) : (countMemWrite s).completion = s.completion := rfl

/-! ### `countIoRead` -/

@[simp] theorem countIoRead_cfg (s : State) : (countIoRead s).cfg = s.cfg := rfl
@[simp] theorem countIoRead_regs (s : State) : (countIoRead s).regs = s.regs := rfl
@[simp] theorem countIoRead_pc (s : State) : (countIoRead s).pc = s.pc := rfl
@[simp] theorem countIoRead_next (s : State) : (countIoRead s).next = s.next := rfl
@[simp] theorem countIoRead_run (s : State) : (countIoRead s).run = s.run := rfl
@[simp] theorem countIoRead_fault (s : State) : (countIoRead s).fault = s.fault := rfl
@[simp] theorem countIoRead_mem (s : State) : (countIoRead s).mem = s.mem := rfl
@[simp] theorem countIoRead_io (s : State) : (countIoRead s).io = s.io := rfl
@[simp] theorem countIoRead_memReads (s : State) : (countIoRead s).memReads = s.memReads := rfl
@[simp] theorem countIoRead_memWrites (s : State) : (countIoRead s).memWrites = s.memWrites := rfl
@[simp] theorem countIoRead_ioReads (s : State) : (countIoRead s).ioReads = s.ioReads + 1 := rfl
@[simp] theorem countIoRead_ioWrites (s : State) : (countIoRead s).ioWrites = s.ioWrites := rfl
@[simp] theorem countIoRead_lines (s : State) : (countIoRead s).lines = s.lines := rfl
@[simp] theorem countIoRead_cacheEnabled (s : State) : (countIoRead s).cacheEnabled = s.cacheEnabled := rfl
@[simp] theorem countIoRead_hits (s : State) : (countIoRead s).hits = s.hits := rfl
@[simp] theorem countIoRead_misses (s : State) : (countIoRead s).misses = s.misses := rfl
@[simp] theorem countIoRead_outLog (s : State) : (countIoRead s).outLog = s.outLog := rfl
@[simp] theorem countIoRead_completion (s : State) : (countIoRead s).completion = s.completion := rfl

/-! ### `countIoWrite` -/

@[simp] theorem countIoWrite_cfg (s : State) : (countIoWrite s).cfg = s.cfg := rfl
@[simp] theorem countIoWrite_regs (s : State) : (countIoWrite s).regs = s.regs := rfl
@[simp] theorem countIoWrite_pc (s : State) : (countIoWrite s).pc = s.pc := rfl
@[simp] theorem countIoWrite_next (s : State) : (countIoWrite s).next = s.next := rfl
@[simp] theorem countIoWrite_run (s : State) : (countIoWrite s).run = s.run := rfl
@[simp] theorem countIoWrite_fault (s : State) : (countIoWrite s).fault = s.fault := rfl
@[simp] theorem countIoWrite_mem (s : State) : (countIoWrite s).mem = s.mem := rfl
@[simp] theorem countIoWrite_io (s : State) : (countIoWrite s).io = s.io := rfl
@[simp] theorem countIoWrite_memReads (s : State) : (countIoWrite s).memReads = s.memReads := rfl
@[simp] theorem countIoWrite_memWrites (s : State) : (countIoWrite s).memWrites = s.memWrites := rfl
@[simp] theorem countIoWrite_ioReads (s : State) : (countIoWrite s).ioReads = s.ioReads := rfl
@[simp] theorem countIoWrite_ioWrites (s : State) : (countIoWrite s).ioWrites = s.ioWrites + 1 := rfl
@[simp] theorem countIoWrite_lines (s : State) : (countIoWrite s).lines = s.lines := rfl
@[simp] theorem countIoWrite_cacheEnabled (s : State) : (countIoWrite s).cacheEnabled = s.cacheEnabled := rfl
@[simp] theorem countIoWrite_hits (s : State) : (countIoWrite s).hits = s.hits := rfl
@[simp] theorem countIoWrite_misses (s : State) : (countIoWrite s).misses = s.misses := rfl
@[simp] theorem countIoWrite_outLog (s : State) : (countIoWrite s).outLog = s.outLog := rfl
@[simp] theorem countIoWrite_completion (s : State) : (countIoWrite s).completion = s.completion := rfl

/-! ### `cacheInvalidateAll` -/

@[simp] theorem cacheInvalidateAll_cfg (s : State) : (cacheInvalidateAll s).cfg = s.cfg := rfl
@[simp] theorem cacheInvalidateAll_regs (s : State) : (cacheInvalidateAll s).regs = s.regs := rfl
@[simp] theorem cacheInvalidateAll_pc (s : State) : (cacheInvalidateAll s).pc = s.pc := rfl
@[simp] theorem cacheInvalidateAll_next (s : State) : (cacheInvalidateAll s).next = s.next := rfl
@[simp] theorem cacheInvalidateAll_run (s : State) : (cacheInvalidateAll s).run = s.run := rfl
@[simp] theorem cacheInvalidateAll_fault (s : State) : (cacheInvalidateAll s).fault = s.fault := rfl
@[simp] theorem cacheInvalidateAll_mem (s : State) : (cacheInvalidateAll s).mem = s.mem := rfl
@[simp] theorem cacheInvalidateAll_io (s : State) : (cacheInvalidateAll s).io = s.io := rfl
@[simp] theorem cacheInvalidateAll_memReads (s : State) : (cacheInvalidateAll s).memReads = s.memReads := rfl
@[simp] theorem cacheInvalidateAll_memWrites (s : State) : (cacheInvalidateAll s).memWrites = s.memWrites := rfl
@[simp] theorem cacheInvalidateAll_ioReads (s : State) : (cacheInvalidateAll s).ioReads = s.ioReads := rfl
@[simp] theorem cacheInvalidateAll_ioWrites (s : State) : (cacheInvalidateAll s).ioWrites = s.ioWrites := rfl
@[simp] theorem cacheInvalidateAll_lines (s : State) : (cacheInvalidateAll s).lines = s.lines.map CacheLine.invalidate := rfl
@[simp] theorem cacheInvalidateAll_cacheEnabled (s : State) : (cacheInvalidateAll s).cacheEnabled = s.cacheEnabled := rfl
@[simp] theorem cacheInvalidateAll_hits (s : State) : (cacheInvalidateAll s).hits = s.hits := rfl
@[simp] theorem cacheInvalidateAll_misses (s : State) : (cacheInvalidateAll s).misses = s.misses := rfl
@[simp] theorem cacheInvalidateAll_outLog (s : State) : (cacheInvalidateAll s).outLog = s.outLog := rfl
@[simp] theorem cacheInvalidateAll_completion (s : State) : (cacheInvalidateAll s).completion = s.completion := rfl

/-! ### `writeReg`: every field but the registers is kept -/

@[simp] theorem writeReg_cfg (i : RegIdx) (v : Word) (s : State) : (writeReg i v s).cfg = s.cfg := by
  unfold writeReg; split <;> rfl
@[simp] theorem writeReg_pc (i : RegIdx) (v : Word) (s : State) : (writeReg i v s).pc = s.pc := by
  unfold writeReg; split <;> rfl
@[simp] theorem writeReg_next (i : RegIdx) (v : Word) (s : State) : (writeReg i v s).next = s.next := by
  unfold writeReg; split <;> rfl
@[simp] theorem writeReg_run (i : RegIdx) (v : Word) (s : State) : (writeReg i v s).run = s.run := by
  unfold writeReg; split <;> rfl
@[simp] theorem writeReg_fault (i : RegIdx) (v : Word) (s : State) : (writeReg i v s).fault = s.fault := by
  unfold writeReg; split <;> rfl
@[simp] theorem writeReg_mem (i : RegIdx) (v : Word) (s : State) : (writeReg i v s).mem = s.mem := by
  unfold writeReg; split <;> rfl
@[simp] theorem writeReg_io (i : RegIdx) (v : Word) (s : State) : (writeReg i v s).io = s.io := by
  unfold writeReg; split <;> rfl
@[simp] theorem writeReg_memReads (i : RegIdx) (v : Word) (s : State) : (writeReg i v s).memReads = s.memReads := by
  unfold writeReg; split <;> rfl
@[simp] theorem writeReg_memWrites (i : RegIdx) (v : Word) (s : State) : (writeReg i v s).memWrites = s.memWrites := by
  unfold writeReg; split <;> rfl
@[simp] theorem writeReg_ioReads (i : RegIdx) (v : Word) (s : State) : (writeReg i v s).ioReads = s.ioReads := by
  unfold writeReg; split <;> rfl
@[simp] theorem writeReg_ioWrites (i : RegIdx) (v : Word) (s : State) : (writeReg i v s).ioWrites = s.ioWrites := by
  unfold writeReg; split <;> rfl
@[simp] theorem writeReg_lines (i : RegIdx) (v : Word) (s : State) : (writeReg i v s).lines = s.lines := by
  unfold writeReg; split <;> rfl
@[simp] theorem writeReg_cacheEnabled (i : RegIdx) (v : Word) (s : State) : (writeReg i v s).cacheEnabled = s.cacheEnabled := by
  unfold writeReg; split <;> rfl
@[simp] theorem writeReg_hits (i : RegIdx) (v : Word) (s : State) : (writeReg i v s).hits = s.hits := by
  unfold writeReg; split <;> rfl
@[simp] theorem writeReg_misses (i : RegIdx) (v : Word) (s : State) : (writeReg i v s).misses = s.misses := by
  unfold writeReg; split <;> rfl
@[simp] theorem writeReg_outLog (i : RegIdx) (v : Word) (s : State) : (writeReg i v s).outLog = s.outLog := by
  unfold writeReg; split <;> rfl
@[simp] theorem writeReg_completion (i : RegIdx) (v : Word) (s : State) : (writeReg i v s).completion = s.completion := by
  unfold writeReg; split <;> rfl

/-! ### `ioWrite`: every field but the I/O side is kept -/

@[simp] theorem ioWrite_cfg (r : IoReg) (v : Word) (s : State) : (ioWrite r v s).cfg = s.cfg := by cases r <;> rfl
@[simp] theorem ioWrite_regs (r : IoReg) (v : Word) (s : State) : (ioWrite r v s).regs = s.regs := by cases r <;> rfl
@[simp] theorem ioWrite_pc (r : IoReg) (v : Word) (s : State) : (ioWrite r v s).pc = s.pc := by cases r <;> rfl
@[simp] theorem ioWrite_next (r : IoReg) (v : Word) (s : State) : (ioWrite r v s).next = s.next := by cases r <;> rfl
@[simp] theorem ioWrite_run (r : IoReg) (v : Word) (s : State) : (ioWrite r v s).run = s.run := by cases r <;> rfl
@[simp] theorem ioWrite_fault (r : IoReg) (v : Word) (s : State) : (ioWrite r v s).fault = s.fault := by cases r <;> rfl
@[simp] theorem ioWrite_mem (r : IoReg) (v : Word) (s : State) : (ioWrite r v s).mem = s.mem := by cases r <;> rfl
@[simp] theorem ioWrite_memReads (r : IoReg) (v : Word) (s : State) : (ioWrite r v s).memReads = s.memReads := by cases r <;> rfl
@[simp] theorem ioWrite_memWrites (r : IoReg) (v : Word) (s : State) : (ioWrite r v s).memWrites = s.memWrites := by cases r <;> rfl
@[simp] theorem ioWrite_ioReads (r : IoReg) (v : Word) (s : State) : (ioWrite r v s).ioReads = s.ioReads := by cases r <;> rfl
@[simp] theorem ioWrite_ioWrites (r : IoReg) (v : Word) (s : State) : (ioWrite r v s).ioWrites = s.ioWrites := by cases r <;> rfl
@[simp] theorem ioWrite_lines (r : IoReg) (v : Word) (s : State) : (ioWrite r v s).lines = s.lines := by cases r <;> rfl
@[simp] theorem ioWrite_cacheEnabled (r : IoReg) (v : Word) (s : State) : (ioWrite r v s).cacheEnabled = s.cacheEnabled := by cases r <;> rfl
@[simp] theorem ioWrite_hits (r : IoReg) (v : Word) (s : State) : (ioWrite r v s).hits = s.hits := by cases r <;> rfl
@[simp] theorem ioWrite_misses (r : IoReg) (v : Word) (s : State) : (ioWrite r v s).misses = s.misses := by cases r <;> rfl

/-! ### `pcUpdate`: what the PC-update phase keeps whether or not it faults -/

@[simp] theorem pcUpdate_cfg (s : State) : (pcUpdate s).cfg = s.cfg := by unfold pcUpdate; split <;> rfl
@[simp] theorem pcUpdate_regs (s : State) : (pcUpdate s).regs = s.regs := by unfold pcUpdate; split <;> rfl
@[simp] theorem pcUpdate_mem (s : State) : (pcUpdate s).mem = s.mem := by unfold pcUpdate; split <;> rfl
@[simp] theorem pcUpdate_io (s : State) : (pcUpdate s).io = s.io := by unfold pcUpdate; split <;> rfl
@[simp] theorem pcUpdate_memReads (s : State) : (pcUpdate s).memReads = s.memReads := by unfold pcUpdate; split <;> rfl
@[simp] theorem pcUpdate_memWrites (s : State) : (pcUpdate s).memWrites = s.memWrites := by unfold pcUpdate; split <;> rfl
@[simp] theorem pcUpdate_ioReads (s : State) : (pcUpdate s).ioReads = s.ioReads := by unfold pcUpdate; split <;> rfl
@[simp] theorem pcUpdate_ioWrites (s : State) : (pcUpdate s).ioWrites = s.ioWrites := by unfold pcUpdate; split <;> rfl
@[simp] theorem pcUpdate_lines (s : State) : (pcUpdate s).lines = s.lines := by unfold pcUpdate; split <;> rfl
@[simp] theorem pcUpdate_cacheEnabled (s : State) : (pcUpdate s).cacheEnabled = s.cacheEnabled := by unfold pcUpdate; split <;> rfl
@[simp] theorem pcUpdate_hits (s : State) : (pcUpdate s).hits = s.hits := by unfold pcUpdate; split <;> rfl
@[simp] theorem pcUpdate_misses (s : State) : (pcUpdate s).misses = s.misses := by unfold pcUpdate; split <;> rfl
@[simp] theorem pcUpdate_outLog (s : State) : (pcUpdate s).outLog = s.outLog := by unfold pcUpdate; split <;> rfl
@[simp] theorem pcUpdate_completion (s : State) : (pcUpdate s).completion = s.completion := by unfold pcUpdate; split <;> rfl
@[simp] theorem pcUpdate_next (s : State) : (pcUpdate s).next = none := by unfold pcUpdate; split <;> rfl

/-! ### Equal fields, equal states -/

/-- Two states with the same eighteen fields are the same state. -/
theorem State.eq_of_fields {s t : State} (h1 : s.cfg = t.cfg) (h2 : s.regs = t.regs) (h3 : s.pc = t.pc)
    (h4 : s.next = t.next) (h5 : s.run = t.run) (h6 : s.fault = t.fault) (h7 : s.mem = t.mem) (h8 : s.io = t.io)
    (h9 : s.memReads = t.memReads) (h10 : s.memWrites = t.memWrites) (h11 : s.ioReads = t.ioReads)
    (h12 : s.ioWrites = t.ioWrites) (h13 : s.lines = t.lines) (h14 : s.cacheEnabled = t.cacheEnabled)
    (h15 : s.hits = t.hits) (h16 : s.misses = t.misses) (h17 : s.outLog = t.outLog)
    (h18 : s.completion = t.completion) : s = t := by
  cases s; cases t
  cases h1; cases h2; cases h3; cases h4; cases h5; cases h6; cases h7; cases h8; cases h9
  cases h10; cases h11; cases h12; cases h13; cases h14; cases h15; cases h16; cases h17; cases h18
  rfl

/-! ### Reading registers through the updates -/

/-- Register 0 reads 0 (10_state.md R21). -/
@[simp] theorem readReg_zero (s : State) : readReg 0#5 s = 0#32 := rfl

/-- A read depends on the register file alone. -/
theorem readReg_congr (i : RegIdx) (s t : State) (h : s.regs = t.regs) : readReg i s = readReg i t := by
  unfold readReg; simp only [h]

/-- Reading a register after a write: the written value, unless the register is 0 or another one (10_state.md R21). -/
theorem readReg_writeReg (i j : RegIdx) (v : Word) (s : State) :
    readReg i (writeReg j v s) = if i = j ∧ j ≠ 0#5 then v else readReg i s := by
  unfold readReg writeReg
  by_cases hj : j = 0#5
  · simp [hj]
  · by_cases hi : i = j
    · simp [hi, hj]
    · have hne : j.toNat ≠ i.toNat := fun h => hi (BitVec.eq_of_toNat_eq h.symm)
      simp [hi, hj, Vector.getElem_set_ne _ _ hne]

end Sys2Proof.Machine
end

