-- ==== Sys2Proof/Laws/Cache.lean ====
section
/-! SUPPORT. The cache: the address split, what a line holds, and that the cache's operations keep the bus invariant and
return the memory's word (20_memory.md R71, R80, R81). -/

namespace Sys2Proof.Machine

/-! ### The geometry -/

/-- `LINE_SIZE = 2^OFFSET_BITS` (00_scope.md R7). -/
theorem lineSize_eq_pow (c : Config) (h : c.GeometryLegal) : c.lineSize = 2 ^ c.offsetBits := h.1

/-- `NUM_LINES = 2^INDEX_BITS` (00_scope.md R7). -/
theorem numLines_eq_pow (c : Config) (h : c.GeometryLegal) : c.numLines = 2 ^ c.indexBits := by
  obtain ⟨h1, h2, h3, h4, -⟩ := h
  have hle : c.lineSize.log2 ≤ c.cacheSize.log2 := by
    rw [h1, h3] at h4
    exact (Nat.pow_le_pow_iff_right (by omega)).mp h4
  have hn : c.numLines = 2 ^ (c.cacheSize.log2 - c.lineSize.log2) := by
    unfold Config.numLines
    rw [h1, h3, Nat.pow_div hle (by omega), Nat.log2_two_pow, Nat.log2_two_pow]
  unfold Config.indexBits
  rw [hn, Nat.log2_two_pow]

theorem numLines_pos (c : Config) (h : c.GeometryLegal) : 0 < c.numLines := by
  rw [numLines_eq_pow c h]; exact Nat.two_pow_pos _

theorem lineSize_mod_four (c : Config) (h : c.GeometryLegal) : c.lineSize % 4 = 0 := by
  obtain ⟨h1, h2, -⟩ := h
  have h3 : 2 ≤ c.lineSize.log2 := (Nat.le_log2 (by omega)).mpr h2
  obtain ⟨k, hk⟩ := Nat.exists_eq_add_of_le h3
  rw [h1, hk, Nat.pow_add]; omega

/-! ### The split (20_memory.md R71) -/

/-- The block of a tag and an index starts where the two bit fields say. -/
theorem lineBase_eq (c : Config) (h : c.GeometryLegal) (tag : Word) (i : Nat) (hi : i < c.numLines) :
    lineBase c tag i = (tag.toNat * c.numLines + i) * c.lineSize := by
  have hN := numLines_eq_pow c h
  have hL := lineSize_eq_pow c h
  unfold lineBase
  rw [Nat.add_comm c.offsetBits, Nat.shiftLeft_add, ← Nat.shiftLeft_or_distrib,
    ← Nat.shiftLeft_add_eq_or_of_lt (hN ▸ hi), Nat.shiftLeft_eq, Nat.shiftLeft_eq, ← hN, ← hL]

theorem cacheTag_toNat (c : Config) (h : c.GeometryLegal) (a : Word) :
    (cacheTag c a).toNat = a.toNat / c.lineSize / c.numLines := by
  unfold cacheTag
  rw [BitVec.toNat_ushiftRight, Nat.shiftRight_add, Nat.shiftRight_eq_div_pow, Nat.shiftRight_eq_div_pow,
    ← numLines_eq_pow c h, ← lineSize_eq_pow c h]

theorem cacheIndex_eq (c : Config) (h : c.GeometryLegal) (a : Word) :
    cacheIndex c a = a.toNat / c.lineSize % c.numLines := by
  unfold cacheIndex
  rw [Nat.shiftRight_eq_div_pow, ← lineSize_eq_pow c h]

theorem cacheIndex_lt (c : Config) (h : c.GeometryLegal) (a : Word) : cacheIndex c a < c.numLines :=
  Nat.mod_lt _ (numLines_pos c h)

/-- The three fields put the address together again. -/
theorem cacheBase_eq_lineBase (c : Config) (h : c.GeometryLegal) (a : Word) :
    cacheBase c a = lineBase c (cacheTag c a) (cacheIndex c a) := by
  rw [lineBase_eq c h _ _ (cacheIndex_lt c h a), cacheTag_toNat c h, cacheIndex_eq c h]
  have h1 := Nat.div_add_mod (a.toNat / c.lineSize) c.numLines
  have h2 := Nat.div_add_mod a.toNat c.lineSize
  unfold cacheBase cacheOffset
  rw [Nat.mul_comm (a.toNat / c.lineSize / c.numLines), h1, Nat.mul_comm]
  omega

theorem cacheBase_add_offset (c : Config) (a : Word) : cacheBase c a + cacheOffset c a = a.toNat := by
  unfold cacheBase cacheOffset
  have := Nat.mod_le a.toNat c.lineSize
  omega

/-- An aligned word lies inside its block (20_memory.md R55). -/
theorem offset_add_four_le (c : Config) (h : c.GeometryLegal) (a : Word) (ha : a.toNat % 4 = 0) :
    cacheOffset c a + 4 ≤ c.lineSize := by
  have hL := lineSize_mod_four c h
  have hlt : cacheOffset c a < c.lineSize := Nat.mod_lt _ (by have := h.2.1; omega)
  have h4 : cacheOffset c a % 4 = 0 := by
    unfold cacheOffset
    rw [Nat.mod_mod_of_dvd _ (Nat.dvd_of_mod_eq_zero hL)]; exact ha
  omega

/-- The block of an address inside the memory lies inside the memory (20_memory.md R73). -/
theorem block_inside (c : Config) (h : c.Legal) (a : Word) (ha : a.toNat < c.memorySize) :
    cacheBase c a + c.lineSize ≤ c.memorySize := by
  obtain ⟨q, hq⟩ := Nat.dvd_of_mod_eq_zero h.2.2.2.1
  have hL : 0 < c.lineSize := by have := h.1.2.1; omega
  have h2 := Nat.div_add_mod a.toNat c.lineSize
  have hb : cacheBase c a = c.lineSize * (a.toNat / c.lineSize) := by unfold cacheBase cacheOffset; omega
  have hlt : a.toNat / c.lineSize < q := by
    rw [Nat.div_lt_iff_lt_mul hL, Nat.mul_comm]; omega
  rw [hb, hq, ← Nat.mul_succ]
  exact Nat.mul_le_mul_left _ hlt

/-- An address inside the block of a tag and an index has that tag and that index. -/
theorem block_unique (c : Config) (h : c.GeometryLegal) (a tag : Word) (i k : Nat) (hi : i < c.numLines)
    (hk : k < c.lineSize) (heq : lineBase c tag i + k = a.toNat) : cacheIndex c a = i ∧ cacheTag c a = tag := by
  rw [lineBase_eq c h tag i hi] at heq
  have hL : 0 < c.lineSize := by have := h.2.1; omega
  have hd : a.toNat / c.lineSize = tag.toNat * c.numLines + i := by
    rw [← heq, Nat.add_comm, Nat.add_mul_div_right _ _ hL, Nat.div_eq_of_lt hk, Nat.zero_add]
  refine ⟨?_, BitVec.eq_of_toNat_eq ?_⟩
  · rw [cacheIndex_eq c h, hd, Nat.add_comm, Nat.add_mul_mod_self_right, Nat.mod_eq_of_lt hi]
  · rw [cacheTag_toNat c h, hd, Nat.add_comm, Nat.add_mul_div_right _ _ (numLines_pos c h), Nat.div_eq_of_lt hi,
      Nat.zero_add]

/-! ### Lines -/

/-- The line at an index after the line of an address is replaced. -/
theorem lineAt_setLineOf (a : Word) (l : CacheLine) (s : State) (i : Nat) :
    lineAt (setLineOf a l s) i = if i = cacheIndex s.cfg a ∧ i < s.lines.length then l else lineAt s i := by
  unfold lineAt
  simp only [setLineOf_lines, setLineOf_cfg, List.getD_eq_getElem?_getD, List.getElem?_set]
  by_cases h : cacheIndex s.cfg a = i
  · by_cases h2 : i < s.lines.length
    · simp [h, h2]
    · simp [h, h2]
  · simp [h, Ne.symm h]

/-- The bytes of a refilled block. -/
theorem backBlock_getD (m : Memory) (base n k : Nat) (hk : k < n) :
    (backBlock m base n).getD k 0#8 = Memory.read m (base + k) := by
  simp [backBlock, List.getD_eq_getElem?_getD, hk]

theorem backBlock_length (m : Memory) (base n : Nat) : (backBlock m base n).length = n := by simp [backBlock]

theorem lineSetWord_length (l : CacheLine) (off : Nat) (v : Word) : (lineSetWord l off v).data.length = l.data.length := by
  simp [lineSetWord]

/-- The bytes of a line after a write hit: the word's four at the offset, the old ones elsewhere. -/
theorem lineSetWord_getD (l : CacheLine) (off k : Nat) (v : Word) (h : off + 4 ≤ l.data.length) :
    (lineSetWord l off v).data.getD k 0#8 =
      if k = off + 3 then wordByte v 3 else if k = off + 2 then wordByte v 2 else if k = off + 1 then wordByte v 1
      else if k = off then wordByte v 0 else l.data.getD k 0#8 := by
  simp only [lineSetWord, List.getD_eq_getElem?_getD, List.getElem?_set, List.length_set]
  by_cases h3 : k = off + 3
  · subst h3; rw [if_pos rfl, if_pos (by omega), if_pos rfl]; rfl
  by_cases h2 : k = off + 2
  · subst h2; rw [if_neg (by omega), if_pos rfl, if_pos (by omega), if_neg h3, if_pos rfl]; rfl
  by_cases h1 : k = off + 1
  · subst h1; rw [if_neg (by omega), if_neg (by omega), if_pos rfl, if_pos (by omega), if_neg h3, if_neg h2, if_pos rfl]; rfl
  by_cases h0 : k = off
  · subst h0
    rw [if_neg (by omega), if_neg (by omega), if_neg (by omega), if_pos rfl, if_pos (by omega), if_neg h3, if_neg h2,
      if_neg h1, if_pos rfl]
    rfl
  rw [if_neg (by omega), if_neg (by omega), if_neg (by omega), if_neg (by omega), if_neg h3, if_neg h2, if_neg h1, if_neg h0]

/-- A line that holds the memory's bytes of the block of `a` gives the memory's word at `a`. -/
theorem lineWord_eq_backRead (c : Config) (h : c.GeometryLegal) (m : Memory) (l : CacheLine) (a : Word)
    (ha : a.toNat % 4 = 0) (hl : ∀ k, k < c.lineSize → l.data.getD k 0#8 = Memory.read m (cacheBase c a + k)) :
    lineWord l (cacheOffset c a) = backRead m a.toNat := by
  have ho := offset_add_four_le c h a ha
  have hb := cacheBase_add_offset c a
  unfold lineWord backRead
  rw [hl _ (by omega), hl _ (by omega), hl _ (by omega), hl _ (by omega), ← hb]
  simp only [Nat.add_assoc]

/-- The line an address maps to holds the memory's bytes when it is resident (20_memory.md R72, R80). -/
theorem resident_bytes (s : State) (hs : s.BusInv) (a : Word) (hr : Resident s a) :
    ∀ k, k < s.cfg.lineSize → (lineOf s a).data.getD k 0#8 = Memory.read s.mem (cacheBase s.cfg a + k) := by
  obtain ⟨hv, ht⟩ := hr
  have hc := hs.coherent _ (cacheIndex_lt s.cfg hs.legal.1 a) hv
  intro k hk
  have hk' := hc.2 k hk
  unfold lineOf at ht
  rw [ht, ← cacheBase_eq_lineBase s.cfg hs.legal.1 a] at hk'
  exact hk'

/-! ### The operations keep the bus invariant -/

/-- A change that leaves the configuration, the memory, the lines and the enable flag alone keeps the bus invariant. -/
theorem State.BusInv.congr {s t : State} (hs : s.BusInv) (hc : t.cfg = s.cfg) (hm : t.mem = s.mem)
    (hl : t.lines = s.lines) (he : t.cacheEnabled = s.cacheEnabled) : t.BusInv where
  legal := hc ▸ hs.legal
  memWf := hm ▸ hs.memWf
  memInside := by rw [hm, hc]; exact hs.memInside
  lineCount := by rw [hl, hc]; exact hs.lineCount
  lineData := by rw [hl, hc]; exact hs.lineData
  coherent := by
    intro i hi
    have h := hs.coherent i (hc ▸ hi)
    have hat : lineAt t i = lineAt s i := by unfold lineAt; rw [hl, hc]
    simpa only [LineCoherent, hat, hc, hm] using h
  disabledEmpty := by rw [hl, he]; exact hs.disabledEmpty

/-- Replacing the line of an address by one that is coherent, in an enabled cache or by an invalid one, keeps the bus
invariant. -/
theorem State.BusInv.setLineOf {s : State} (hs : s.BusInv) (a : Word) (l : CacheLine)
    (hen : s.cacheEnabled = true ∨ l.valid = false) (hlen : l.data.length = s.cfg.lineSize)
    (hl : l.valid = true → lineBase s.cfg l.tag (cacheIndex s.cfg a) + s.cfg.lineSize ≤ s.cfg.memorySize ∧
      ∀ k, k < s.cfg.lineSize →
        l.data.getD k 0#8 = Memory.read s.mem (lineBase s.cfg l.tag (cacheIndex s.cfg a) + k)) :
    (Machine.setLineOf a l s).BusInv where
  legal := hs.legal
  memWf := hs.memWf
  memInside := hs.memInside
  lineCount := by simpa using hs.lineCount
  lineData := by
    intro x hx
    simp only [setLineOf_lines, setLineOf_cfg] at hx ⊢
    rcases List.mem_or_eq_of_mem_set hx with h | h
    · exact hs.lineData x h
    · exact h ▸ hlen
  coherent := by
    intro i hi
    have h := hs.coherent i hi
    have hi' : i < s.lines.length := by rw [hs.lineCount]; exact hi
    simp only [LineCoherent, lineAt_setLineOf, setLineOf_cfg, setLineOf_mem] at h ⊢
    by_cases hidx : i = cacheIndex s.cfg a
    · subst hidx; simpa [hi'] using hl
    · simpa [hidx] using h
  disabledEmpty := by
    intro hd x hx
    rcases List.mem_or_eq_of_mem_set hx with h | h
    · exact hs.disabledEmpty hd x h
    · rcases hen with hen | hen
      · exact absurd (hd.symm.trans hen) (by decide)
      · exact h ▸ hen

/-- Making every line invalid keeps the bus invariant (20_memory.md R77). -/
theorem State.BusInv.invalidateAll {s : State} (hleg : s.cfg.Legal) (hwf : Memory.wf s.mem = true)
    (hin : ∀ cell ∈ s.mem, cell.1 < s.cfg.memorySize) (hcount : s.lines.length = s.cfg.numLines)
    (hdata : ∀ l ∈ s.lines, l.data.length = s.cfg.lineSize) : (cacheInvalidateAll s).BusInv where
  legal := hleg
  memWf := hwf
  memInside := hin
  lineCount := by simpa using hcount
  lineData := by
    intro l hl
    simp only [cacheInvalidateAll_lines, List.mem_map] at hl
    obtain ⟨l', hl', rfl⟩ := hl
    exact hdata l' hl'
  coherent := by
    intro i hi hv
    have hfalse : (lineAt (cacheInvalidateAll s) i).valid = false := by
      unfold lineAt
      simp only [cacheInvalidateAll_lines, cacheInvalidateAll_cfg, List.getD_eq_getElem?_getD, List.getElem?_map]
      cases s.lines[i]? <;> rfl
    rw [hfalse] at hv
    exact absurd hv (by decide)
  disabledEmpty := by
    intro _ l hl
    simp only [cacheInvalidateAll_lines, List.mem_map] at hl
    obtain ⟨l', -, rfl⟩ := hl
    rfl

/-- `CacheRead`: the word is the memory's word at the address (20_memory.md R81). -/
theorem cacheRead_value (s : State) (hs : s.BusInv) (a : Word) (ha : a.toNat % 4 = 0) :
    (cacheRead a s).1 = backRead s.mem a.toNat := by
  unfold cacheRead
  split
  · rfl
  · split
    · next hr => exact lineWord_eq_backRead s.cfg hs.legal.1 s.mem _ a ha (resident_bytes s hs a hr)
    · exact lineWord_eq_backRead s.cfg hs.legal.1 s.mem _ a ha fun k hk => backBlock_getD _ _ _ _ hk

/-- `CacheRead` changes lines and cache counters only (20_memory.md R74). -/
theorem cacheRead_frame (s : State) (a : Word) :
    (cacheRead a s).2 = { s with lines := (cacheRead a s).2.lines, hits := (cacheRead a s).2.hits, misses := (cacheRead a s).2.misses } := by
  unfold cacheRead
  split
  · rfl
  · split <;> rfl

/-- `CacheRead` inside the memory keeps the bus invariant (20_memory.md R80). -/
theorem cacheRead_keeps_busInv (s : State) (hs : s.BusInv) (a : Word) (ha : a.toNat < s.cfg.memorySize) :
    (cacheRead a s).2.BusInv := by
  have hg := hs.legal.1
  unfold cacheRead
  split
  · exact hs
  · next hen =>
    split
    · exact hs.congr rfl rfl rfl rfl
    · refine State.BusInv.setLineOf (hs.congr (t := countMiss s) rfl rfl rfl rfl) a _ (.inl (by simpa using hen)) (backBlock_length _ _ _) fun _ => ?_
      have hb := cacheBase_eq_lineBase s.cfg hg a
      refine ⟨?_, fun k hk => ?_⟩
      · show lineBase s.cfg (cacheTag s.cfg a) (cacheIndex s.cfg a) + _ ≤ _
        rw [← hb]; exact block_inside s.cfg hs.legal a ha
      · show (backBlock s.mem (cacheBase s.cfg a) s.cfg.lineSize).getD k 0#8 =
          Memory.read s.mem (lineBase s.cfg (cacheTag s.cfg a) (cacheIndex s.cfg a) + k)
        rw [← hb]; exact backBlock_getD _ _ _ _ hk

/-- `CacheWrite` changes memory as `BackWrite` does, and beside it lines and cache counters only (20_memory.md R75). -/
theorem cacheWrite_frame (s : State) (a v : Word) :
    cacheWrite a v s = { s with
      mem := backWrite s.mem a.toNat v
      lines := (cacheWrite a v s).lines
      hits := (cacheWrite a v s).hits
      misses := (cacheWrite a v s).misses } := by
  unfold cacheWrite
  split
  · rfl
  · split <;> rfl

/-- A store seen by a line of another block: none of its bytes changes. -/
theorem store_outside_block (s : State) (hs : s.BusInv) (a v : Word) (ha : a.toNat % 4 = 0)
    (tag : Word) (i : Nat) (hi : i < s.cfg.numLines) (hne : ¬(cacheIndex s.cfg a = i ∧ cacheTag s.cfg a = tag)) (k : Nat)
    (hk : k < s.cfg.lineSize) :
    Memory.read (backWrite s.mem a.toNat v) (lineBase s.cfg tag i + k) = Memory.read s.mem (lineBase s.cfg tag i + k) := by
  have hg := hs.legal.1
  refine read_backWrite_outside _ _ _ _ hs.memWf ?_
  by_contra hcon
  refine hne (block_unique s.cfg hg a tag i (a.toNat - lineBase s.cfg tag i) hi ?_ ?_)
  · -- the block starts at a multiple of 4, so it cannot start inside the word
    rw [lineBase_eq s.cfg hg tag i hi] at hcon ⊢
    have h4 : ((tag.toNat * s.cfg.numLines + i) * s.cfg.lineSize) % 4 = 0 := by
      rw [Nat.mul_mod, lineSize_mod_four s.cfg hg]; rfl
    omega
  · rw [lineBase_eq s.cfg hg tag i hi] at hcon ⊢
    have h4 : ((tag.toNat * s.cfg.numLines + i) * s.cfg.lineSize) % 4 = 0 := by
      rw [Nat.mul_mod, lineSize_mod_four s.cfg hg]; rfl
    omega

/-- `CacheWrite` of an aligned word inside the memory keeps the bus invariant (20_memory.md R80). -/
theorem cacheWrite_keeps_busInv (s : State) (hs : s.BusInv) (a v : Word)
    (ha : a.toNat % 4 = 0) (hin : a.toNat + 4 ≤ s.cfg.memorySize) : (cacheWrite a v s).BusInv := by
  have hg := hs.legal.1
  have hmw := wf_backWrite s.mem a.toNat v hs.memWf
  have hmi := inside_backWrite s.mem a.toNat s.cfg.memorySize v hs.memInside hin
  have kept : ∀ i, i < s.cfg.numLines → (lineAt s i).valid = true →
      ¬(cacheIndex s.cfg a = i ∧ cacheTag s.cfg a = (lineAt s i).tag) →
      lineBase s.cfg (lineAt s i).tag i + s.cfg.lineSize ≤ s.cfg.memorySize ∧ ∀ k, k < s.cfg.lineSize →
        (lineAt s i).data.getD k 0#8 =
          Memory.read (backWrite s.mem a.toNat v) (lineBase s.cfg (lineAt s i).tag i + k) := by
    intro i hi hv hne
    have hc := hs.coherent i hi hv
    refine ⟨hc.1, fun k hk => ?_⟩
    rw [store_outside_block s hs a v ha _ i hi hne k hk]
    exact hc.2 k hk
  unfold cacheWrite
  split
  · next hdis =>
    refine ⟨hs.legal, hmw, hmi, hs.lineCount, hs.lineData, fun i hi hv => ?_, hs.disabledEmpty⟩
    have hmem : lineAt s i ∈ s.lines := by
      unfold lineAt
      rw [List.getD_eq_getElem?_getD, List.getElem?_eq_getElem (by rw [hs.lineCount]; exact hi)]
      exact List.getElem_mem _
    exact absurd (hv.symm.trans (hs.disabledEmpty hdis _ hmem)) (by decide)
  split
  · next hen hr =>
    have hidx := cacheIndex_lt s.cfg hg a
    have hlen : (lineOf s a).data.length = s.cfg.lineSize := by
      unfold lineOf lineAt
      rw [List.getD_eq_getElem?_getD, List.getElem?_eq_getElem (by rw [hs.lineCount]; exact hidx)]
      exact hs.lineData _ (List.getElem_mem _)
    have ho := offset_add_four_le s.cfg hg a ha
    have hb := cacheBase_add_offset s.cfg a
    have hbl := cacheBase_eq_lineBase s.cfg hg a
    refine ⟨hs.legal, hmw, hmi, by simpa using hs.lineCount, ?_, ?_, fun h => absurd h hen⟩
    · intro x hx
      simp only [setLineOf_lines, setLineOf_cfg, countHit_lines, countHit_cfg, storeWord_lines, storeWord_cfg] at hx ⊢
      rcases List.mem_or_eq_of_mem_set hx with h | h
      · exact hs.lineData x h
      · rw [h, lineSetWord_length, hlen]
    · intro i hi
      have hi' : i < s.lines.length := by rw [hs.lineCount]; exact hi
      simp only [LineCoherent, lineAt_setLineOf, setLineOf_cfg, setLineOf_mem, countHit_cfg, countHit_mem, storeWord_cfg,
        storeWord_mem, countHit_lines, storeWord_lines]
      by_cases hia : i = cacheIndex s.cfg a
      · subst hia
        simp only [true_and, hi', if_true]
        intro _
        have ht : (lineSetWord (lineOf s a) (cacheOffset s.cfg a) v).tag = cacheTag s.cfg a := hr.2
        rw [ht, ← hbl]
        refine ⟨block_inside s.cfg hs.legal a (by omega), fun k hk => ?_⟩
        rw [lineSetWord_getD _ _ _ _ (by omega), read_backWrite _ _ _ _ hs.memWf, resident_bytes s hs a hr k hk]
        have e3 : (k = cacheOffset s.cfg a + 3) = (cacheBase s.cfg a + k = a.toNat + 3) := by apply propext; omega
        have e2 : (k = cacheOffset s.cfg a + 2) = (cacheBase s.cfg a + k = a.toNat + 2) := by apply propext; omega
        have e1 : (k = cacheOffset s.cfg a + 1) = (cacheBase s.cfg a + k = a.toNat + 1) := by apply propext; omega
        have e0 : (k = cacheOffset s.cfg a) = (cacheBase s.cfg a + k = a.toNat) := by apply propext; omega
        simp only [e3, e2, e1, e0]
      · simp only [hia, false_and, if_false]
        exact fun hv => kept i hi hv fun h => hia h.1.symm
  · next hr =>
    refine ⟨hs.legal, hmw, hmi, hs.lineCount, hs.lineData, fun i hi hv => kept i hi hv ?_, hs.disabledEmpty⟩
    rintro ⟨rfl, ht⟩
    exact hr ⟨hv, ht.symm⟩

/-- `CacheRead` of an enabled cache counts one hit or one miss; of a disabled one it changes nothing (20_memory.md R74,
R79). -/
theorem cacheRead_counts (a : Word) (s : State) :
    (s.cacheEnabled = true →
      ((cacheRead a s).2.hits = s.hits + 1 ∧ (cacheRead a s).2.misses = s.misses) ∨
        ((cacheRead a s).2.hits = s.hits ∧ (cacheRead a s).2.misses = s.misses + 1)) ∧
      (s.cacheEnabled = false → (cacheRead a s).2 = s) := by
  unfold cacheRead
  refine ⟨fun h => ?_, fun h => by rw [if_pos h]⟩
  rw [if_neg (by simp [h])]
  split <;> simp

/-- `CacheWrite` of an enabled cache counts one hit or one miss; of a disabled one it only stores (20_memory.md R75, R79). -/
theorem cacheWrite_counts (a v : Word) (s : State) :
    (s.cacheEnabled = true →
      ((cacheWrite a v s).hits = s.hits + 1 ∧ (cacheWrite a v s).misses = s.misses) ∨
        ((cacheWrite a v s).hits = s.hits ∧ (cacheWrite a v s).misses = s.misses + 1)) ∧
      (s.cacheEnabled = false → cacheWrite a v s = storeWord a v s) := by
  unfold cacheWrite
  refine ⟨fun h => ?_, fun h => by rw [if_pos h]⟩
  rw [if_neg (by simp [h])]
  split <;> simp

end Sys2Proof.Machine
end

