-- ==== Sys2Proof/Laws/Bus.lean ====
section
/-! SUPPORT. The bus: where an address leads, what an access answers, and that accesses keep the bus invariant
(20_memory.md R60, R61, R81). -/

namespace Sys2Proof.Machine

/-- An address that leads to memory is aligned and its word is inside the memory. -/
theorem busRoute_memory (c : Config) (a : Word) (h : busRoute c a = .memory) :
    a.toNat % 4 = 0 ∧ a.toNat + 4 ≤ c.memorySize ∧ a.toNat < c.ioBase := by
  unfold busRoute at h
  split at h
  · cases h
  · split at h
    · split at h <;> cases h
    · split at h
      · cases h
      · omega

/-- An address that leads to an I/O register is aligned, at or above `IO_BASE`, and registered. -/
theorem busRoute_io (c : Config) (a : Word) (r : IoReg) (h : busRoute c a = .io r) :
    a.toNat % 4 = 0 ∧ c.ioBase ≤ a.toNat ∧ ioRegAt c a = some r := by
  unfold busRoute at h
  split at h
  · cases h
  · split at h
    · split at h
      · next h1 h2 _ r' h3 => cases h; exact ⟨by omega, h2, h3⟩
      · cases h
    · split at h <;> cases h

/-- What the bus raises: an address that leads nowhere, and why (20_memory.md R60, R61, R62). -/
theorem busRoute_bad (c : Config) (a : Word) (k : ErrorKind) (h : busRoute c a = .bad k) :
    (a.toNat % 4 ≠ 0 ∧ k = .addressError) ∨
      (a.toNat % 4 = 0 ∧ c.ioBase ≤ a.toNat ∧ ioRegAt c a = none ∧ k = .ioAddressError) ∨
      (a.toNat % 4 = 0 ∧ a.toNat < c.ioBase ∧ c.memorySize < a.toNat + 4 ∧ k = .addressError) := by
  unfold busRoute at h
  split at h
  · next h1 => cases h; exact .inl ⟨h1, rfl⟩
  · split at h
    · split at h
      · cases h
      · next h1 h2 _ h3 => cases h; exact .inr (.inl ⟨by omega, h2, h3, rfl⟩)
    · split at h
      · cases h; exact .inr (.inr ⟨by omega, by omega, by assumption, rfl⟩)
      · cases h

/-- The kinds the bus raises. -/
theorem busRoute_kind (c : Config) (a : Word) (k : ErrorKind) (h : busRoute c a = .bad k) :
    k = .addressError ∨ k = .ioAddressError := by
  rcases busRoute_bad c a k h with ⟨-, rfl⟩ | ⟨-, -, -, rfl⟩ | ⟨-, -, -, rfl⟩ <;> simp

/-- An access that answers a word: from memory through the cache, or from an I/O register. -/
theorem memRead_ok {a : Word} {s t : State} {v : Word} (h : memRead a s = .ok (v, t)) :
    (busRoute s.cfg a = .memory ∧ v = (cacheRead a (countMemRead s)).1 ∧ t = (cacheRead a (countMemRead s)).2) ∨
      ∃ r, busRoute s.cfg a = .io r ∧ v = s.io.get r ∧ t = countIoRead s := by
  unfold memRead at h
  split at h
  · cases h
  · next r hr => cases h; exact .inr ⟨r, hr, rfl, rfl⟩
  · next hr =>
    have h' := Except.ok.inj h
    exact .inl ⟨hr, congrArg Prod.fst h'.symm, congrArg Prod.snd h'.symm⟩

/-- An access that raises names its own address and changes nothing. -/
theorem memRead_error {a : Word} {s : State} {e : Raised} (h : memRead a s = .error e) :
    ∃ k, busRoute s.cfg a = .bad k ∧ e = { kind := k, addr := a } := by
  unfold memRead at h
  split at h
  · next k hk => cases h; exact ⟨k, hk, rfl⟩
  · cases h
  · cases h

/-- A store that succeeds: to memory through the cache, or to an I/O register. -/
theorem memWrite_ok {a v : Word} {s t : State} (h : memWrite a v s = .ok t) :
    (busRoute s.cfg a = .memory ∧ t = cacheWrite a v (countMemWrite s)) ∨
      ∃ r, busRoute s.cfg a = .io r ∧ t = ioWrite r v (countIoWrite s) := by
  unfold memWrite at h
  split at h
  · cases h
  · next r hr => cases h; exact .inr ⟨r, hr, rfl⟩
  · next hr => cases h; exact .inl ⟨hr, rfl⟩

/-- A store that raises names its own address and changes nothing. -/
theorem memWrite_error {a v : Word} {s : State} {e : Raised} (h : memWrite a v s = .error e) :
    ∃ k, busRoute s.cfg a = .bad k ∧ e = { kind := k, addr := a } := by
  unfold memWrite at h
  split at h
  · next k hk => cases h; exact ⟨k, hk, rfl⟩
  · cases h
  · cases h

/-- A read through the bus keeps the bus invariant. -/
theorem memRead_keeps_busInv {a : Word} {s t : State} {v : Word} (hs : s.BusInv) (h : memRead a s = .ok (v, t)) :
    t.BusInv := by
  rcases memRead_ok h with ⟨hr, -, rfl⟩ | ⟨r, -, -, rfl⟩
  · have hb := busRoute_memory _ _ hr
    exact cacheRead_keeps_busInv (countMemRead s) (hs.congr rfl rfl rfl rfl) a (by show a.toNat < s.cfg.memorySize; omega)
  · exact hs.congr rfl rfl rfl rfl

/-- A store through the bus keeps the bus invariant. -/
theorem memWrite_keeps_busInv {a v : Word} {s t : State} (hs : s.BusInv) (h : memWrite a v s = .ok t) : t.BusInv := by
  rcases memWrite_ok h with ⟨hr, rfl⟩ | ⟨r, -, rfl⟩
  · have hb := busRoute_memory _ _ hr
    exact cacheWrite_keeps_busInv (countMemWrite s) (hs.congr rfl rfl rfl rfl) a v hb.1 (by show a.toNat + 4 ≤ s.cfg.memorySize; exact hb.2.1)
  · exact hs.congr (by simp) (by simp) (by simp) (by simp)

/-- The CPU's own state, and what the device side holds, is kept by a read. -/
theorem memRead_frame {a : Word} {s t : State} {v : Word} (h : memRead a s = .ok (v, t)) :
    t.cfg = s.cfg ∧ t.regs = s.regs ∧ t.pc = s.pc ∧ t.next = s.next ∧ t.run = s.run ∧ t.fault = s.fault ∧
      t.mem = s.mem ∧ t.io = s.io ∧ t.memWrites = s.memWrites ∧ t.ioWrites = s.ioWrites ∧
      t.cacheEnabled = s.cacheEnabled ∧ t.outLog = s.outLog ∧ t.completion = s.completion := by
  rcases memRead_ok h with ⟨-, -, rfl⟩ | ⟨r, -, -, rfl⟩
  · rw [cacheRead_frame]; simp
  · simp

/-- The CPU's own state is kept by a store. -/
theorem memWrite_frame {a v : Word} {s t : State} (h : memWrite a v s = .ok t) :
    t.cfg = s.cfg ∧ t.regs = s.regs ∧ t.pc = s.pc ∧ t.next = s.next ∧ t.run = s.run ∧ t.fault = s.fault ∧
      t.memReads = s.memReads ∧ t.ioReads = s.ioReads ∧ t.cacheEnabled = s.cacheEnabled := by
  rcases memWrite_ok h with ⟨-, rfl⟩ | ⟨r, -, rfl⟩
  · rw [cacheWrite_frame]; simp
  · simp

/-- An aligned address below `MEMORY_SIZE` leads to memory, under a legal map. -/
theorem busRoute_of_word (c : Config) (hc : c.Legal) (a : Word) (h4 : a.toNat % 4 = 0) (hlt : a.toNat < c.memorySize) :
    busRoute c a = .memory := by
  have h1 := hc.2.2.1
  have h2 := hc.2.2.2.2.1
  unfold busRoute
  rw [if_neg (by omega), if_neg (by omega), if_neg (by omega)]

/-- A registered address leads to its register, under a legal map. -/
theorem busRoute_of_ioReg (c : Config) (hc : c.Legal) (a : Word) (r : IoReg) (hr : ioRegAt c a = some r) :
    busRoute c a = .io r := by
  have h1 := hc.2.2.2.2.2.1
  have h2 : a.toNat = c.ioBase ∨ a.toNat = c.ioBase + 4 ∨ a.toNat = c.ioBase + 8 := by
    unfold ioRegAt at hr
    split at hr
    · exact .inl ‹_›
    · split at hr
      · exact .inr (.inl ‹_›)
      · split at hr
        · exact .inr (.inr ‹_›)
        · cases hr
  unfold busRoute
  rw [if_neg (by omega), if_pos (by omega), hr]

/-- A read of a word of memory answers the memory's word, whatever the cache holds (20_memory.md R81). -/
theorem memRead_of_word {s : State} (hs : s.BusInv) (a : Word) (h4 : a.toNat % 4 = 0) (hlt : a.toNat < s.cfg.memorySize) :
    memRead a s = .ok (backRead s.mem a.toNat, (cacheRead a (countMemRead s)).2) := by
  unfold memRead
  rw [busRoute_of_word s.cfg hs.legal a h4 hlt]
  have h := cacheRead_value (countMemRead s) (hs.congr rfl rfl rfl rfl) a h4
  rw [countMemRead_mem] at h
  rw [← h]

/-- A store to a word of memory goes to the cache and through it. -/
theorem memWrite_of_word {s : State} (hs : s.BusInv) (a v : Word) (h4 : a.toNat % 4 = 0)
    (hlt : a.toNat < s.cfg.memorySize) : memWrite a v s = .ok (cacheWrite a v (countMemWrite s)) := by
  unfold memWrite
  rw [busRoute_of_word s.cfg hs.legal a h4 hlt]

end Sys2Proof.Machine
end

