-- ==== Sys2Proof/Laws/Encoding.lean ====
section
/-! SUPPORT. The bit fields of encoded words and of words in memory order. -/

namespace Sys2Proof

/-- Decoding the four bytes of a word in memory order is decoding the word. -/
theorem be32_of_bytes (v : Word) : be32 (wordByte v 0) (wordByte v 1) (wordByte v 2) (wordByte v 3) = v := by
  unfold be32 wordByte
  ext i hi
  simp only [BitVec.getElem_append, BitVec.getElem_extractLsb']
  split
  · simp; rw [BitVec.getLsbD_eq_getElem (by omega)]
  · split
    · simp; rw [BitVec.getLsbD_eq_getElem (by omega)]; congr 1; omega
    · split
      · simp; rw [BitVec.getLsbD_eq_getElem (by omega)]; congr 1; omega
      · simp; rw [BitVec.getLsbD_eq_getElem (by omega)]; congr 1; omega

/-! ### R format (30_encoding.md Table F-R) -/

@[simp] theorem opcodeOf_encodeR (rs rt rd : RegIdx) (sh : BitVec 5) (f : BitVec 6) :
    opcodeOf (encodeR rs rt rd sh f) = 0x00#6 := by
  unfold opcodeOf encodeR; ext i hi
  simp only [BitVec.getElem_extractLsb', BitVec.getLsbD_append]
  rw [if_neg (by omega), if_neg (by omega), if_neg (by omega), if_neg (by omega), if_neg (by omega)]; simp
@[simp] theorem rsOf_encodeR (rs rt rd : RegIdx) (sh : BitVec 5) (f : BitVec 6) : rsOf (encodeR rs rt rd sh f) = rs := by
  unfold rsOf encodeR; ext i hi
  simp only [BitVec.getElem_extractLsb', BitVec.getLsbD_append]
  rw [if_neg (by omega), if_neg (by omega), if_neg (by omega), if_neg (by omega), if_pos (by omega),
    BitVec.getLsbD_eq_getElem (by omega)]
  congr 1; omega
@[simp] theorem rtOf_encodeR (rs rt rd : RegIdx) (sh : BitVec 5) (f : BitVec 6) : rtOf (encodeR rs rt rd sh f) = rt := by
  unfold rtOf encodeR; ext i hi
  simp only [BitVec.getElem_extractLsb', BitVec.getLsbD_append]
  rw [if_neg (by omega), if_neg (by omega), if_neg (by omega), if_pos (by omega), BitVec.getLsbD_eq_getElem (by omega)]
  congr 1; omega
@[simp] theorem rdOf_encodeR (rs rt rd : RegIdx) (sh : BitVec 5) (f : BitVec 6) : rdOf (encodeR rs rt rd sh f) = rd := by
  unfold rdOf encodeR; ext i hi
  simp only [BitVec.getElem_extractLsb', BitVec.getLsbD_append]
  rw [if_neg (by omega), if_neg (by omega), if_pos (by omega), BitVec.getLsbD_eq_getElem (by omega)]
  congr 1; omega
@[simp] theorem shamtOf_encodeR (rs rt rd : RegIdx) (sh : BitVec 5) (f : BitVec 6) : shamtOf (encodeR rs rt rd sh f) = sh := by
  unfold shamtOf encodeR; ext i hi
  simp only [BitVec.getElem_extractLsb', BitVec.getLsbD_append]
  rw [if_neg (by omega), if_pos (by omega), BitVec.getLsbD_eq_getElem (by omega)]
  congr 1; omega
@[simp] theorem functOf_encodeR (rs rt rd : RegIdx) (sh : BitVec 5) (f : BitVec 6) : functOf (encodeR rs rt rd sh f) = f := by
  unfold functOf encodeR; ext i hi
  simp only [BitVec.getElem_extractLsb', BitVec.getLsbD_append]
  rw [if_pos (by omega), BitVec.getLsbD_eq_getElem (by omega)]
  congr 1; omega

/-! ### I format (Table F-I) -/

@[simp] theorem opcodeOf_encodeI (op : BitVec 6) (rs rt : RegIdx) (imm : Word) : opcodeOf (encodeI op rs rt imm) = op := by
  unfold opcodeOf encodeI; ext i hi
  simp only [BitVec.getElem_extractLsb', BitVec.getLsbD_append]
  rw [if_neg (by omega), if_neg (by omega), if_neg (by omega), BitVec.getLsbD_eq_getElem (by omega)]
  congr 1; omega
@[simp] theorem rsOf_encodeI (op : BitVec 6) (rs rt : RegIdx) (imm : Word) : rsOf (encodeI op rs rt imm) = rs := by
  unfold rsOf encodeI; ext i hi
  simp only [BitVec.getElem_extractLsb', BitVec.getLsbD_append]
  rw [if_neg (by omega), if_neg (by omega), if_pos (by omega), BitVec.getLsbD_eq_getElem (by omega)]
  congr 1; omega
@[simp] theorem rtOf_encodeI (op : BitVec 6) (rs rt : RegIdx) (imm : Word) : rtOf (encodeI op rs rt imm) = rt := by
  unfold rtOf encodeI; ext i hi
  simp only [BitVec.getElem_extractLsb', BitVec.getLsbD_append]
  rw [if_neg (by omega), if_pos (by omega), BitVec.getLsbD_eq_getElem (by omega)]
  congr 1; omega
/-- The immediate survives when it fits sixteen signed bits (30_encoding.md R125). -/
theorem immOf_encodeI (op : BitVec 6) (rs rt : RegIdx) (imm : Word) (h : ImmFits imm) : immOf (encodeI op rs rt imm) = imm := by
  have hx : (encodeI op rs rt imm).extractLsb' 0 16 = imm.extractLsb' 0 16 := by
    unfold encodeI; ext i hi
    simp only [BitVec.getElem_extractLsb', BitVec.getLsbD_append]
    rw [if_pos (by omega), BitVec.getLsbD_extractLsb']
    simp [hi]
  unfold immOf sext32
  rw [hx]; exact h.symm

/-! ### J format (Table F-J) -/

@[simp] theorem opcodeOf_encodeJ (op : BitVec 6) (t : BitVec 26) : opcodeOf (encodeJ op t) = op := by
  unfold opcodeOf encodeJ; ext i hi
  simp only [BitVec.getElem_extractLsb', BitVec.getLsbD_append]
  rw [if_neg (by omega), BitVec.getLsbD_eq_getElem (by omega)]
  congr 1; omega
@[simp] theorem targetOf_encodeJ (op : BitVec 6) (t : BitVec 26) : targetOf (encodeJ op t) = t := by
  unfold targetOf encodeJ; ext i hi
  simp only [BitVec.getElem_extractLsb', BitVec.getLsbD_append]
  rw [if_pos (by omega), BitVec.getLsbD_eq_getElem (by omega)]
  congr 1; omega

/-! ### Masks of Table OP (30_encoding.md R117) -/

theorem opcodeMask_bit : ∀ i, i < 32 → (0xFC000000#32).getLsbD i = decide (26 ≤ i) := by decide

theorem functMask_bit : ∀ i, i < 32 → (0xFC00003F#32).getLsbD i = decide (26 ≤ i ∨ i < 6) := by decide

/-- A word under the mask `0xFC000000` is its opcode in place. -/
theorem and_opcodeMask (w : Word) : w &&& 0xFC000000#32 = opcodeOf w ++ 0#26 := by
  refine BitVec.eq_of_getLsbD_eq fun i hi => ?_
  unfold opcodeOf
  rw [BitVec.getLsbD_and, opcodeMask_bit i hi, BitVec.getLsbD_append]
  by_cases h : i < 26
  · rw [if_pos h, decide_eq_false (by omega)]; simp
  · rw [if_neg h, decide_eq_true (by omega), BitVec.getLsbD_extractLsb', decide_eq_true (by omega),
      show 26 + (i - 26) = i by omega]
    simp

/-- A word under the mask `0xFC00003F` is its opcode and its funct in place. -/
theorem and_functMask (w : Word) : w &&& 0xFC00003F#32 = opcodeOf w ++ 0#20 ++ functOf w := by
  refine BitVec.eq_of_getLsbD_eq fun i hi => ?_
  unfold opcodeOf functOf
  rw [BitVec.getLsbD_and, functMask_bit i hi, BitVec.getLsbD_append]
  by_cases h : i < 6
  · rw [if_pos h, decide_eq_true (by omega), BitVec.getLsbD_extractLsb', decide_eq_true h]; simp
  · rw [if_neg h, BitVec.getLsbD_append]
    by_cases h2 : i < 26
    · rw [if_pos (by omega), decide_eq_false (by omega)]; simp
    · rw [if_neg (by omega), decide_eq_true (by omega), BitVec.getLsbD_extractLsb', decide_eq_true (by omega),
        show 26 + (i - 6 - 20) = i by omega]
      simp

end Sys2Proof
end

