-- ==== Sys2Proof/Laws/PerInstr.lean ====
section
/-! SUPPORT. Facts stated for every instruction, one lemma a constructor: the encoder's word lies in the row of Table OP
that bears the instruction's mnemonic (30_encoding.md R117, R125). -/

namespace Sys2Proof.Laws.OpcodeRow

/-- Some row of Table OP has the mnemonic and matches the encoded word. -/
def Statement (i : Instr) : Prop := ∃ r ∈ opcodeTable, r.mnemonic = i.mnemonic ∧ r.Matches (encode i)

theorem add (rs rt rd : RegIdx) (shamt : BitVec 5) : Statement (.add rs rt rd shamt) :=
  ⟨⟨"ADD", 0x00000020#32, 0xFC00003F#32⟩, by simp [opcodeTable], rfl, by
    simp only [OpcodeRow.Matches, encode, and_functMask, opcodeOf_encodeR, functOf_encodeR]; decide⟩

theorem sub (rs rt rd : RegIdx) (shamt : BitVec 5) : Statement (.sub rs rt rd shamt) :=
  ⟨⟨"SUB", 0x00000022#32, 0xFC00003F#32⟩, by simp [opcodeTable], rfl, by
    simp only [OpcodeRow.Matches, encode, and_functMask, opcodeOf_encodeR, functOf_encodeR]; decide⟩

theorem slt (rs rt rd : RegIdx) (shamt : BitVec 5) : Statement (.slt rs rt rd shamt) :=
  ⟨⟨"SLT", 0x0000002A#32, 0xFC00003F#32⟩, by simp [opcodeTable], rfl, by
    simp only [OpcodeRow.Matches, encode, and_functMask, opcodeOf_encodeR, functOf_encodeR]; decide⟩

theorem j (target : BitVec 26) : Statement (.j target) :=
  ⟨⟨"J", 0x08000000#32, 0xFC000000#32⟩, by simp [opcodeTable], rfl, by
    simp only [OpcodeRow.Matches, encode, and_opcodeMask, opcodeOf_encodeJ]; decide⟩

theorem jal (target : BitVec 26) : Statement (.jal target) :=
  ⟨⟨"JAL", 0x0C000000#32, 0xFC000000#32⟩, by simp [opcodeTable], rfl, by
    simp only [OpcodeRow.Matches, encode, and_opcodeMask, opcodeOf_encodeJ]; decide⟩

theorem beq (rs rt : RegIdx) (imm : Word) : Statement (.beq rs rt imm) :=
  ⟨⟨"BEQ", 0x10000000#32, 0xFC000000#32⟩, by simp [opcodeTable], rfl, by
    simp only [OpcodeRow.Matches, encode, and_opcodeMask, opcodeOf_encodeI]; decide⟩

theorem bne (rs rt : RegIdx) (imm : Word) : Statement (.bne rs rt imm) :=
  ⟨⟨"BNE", 0x14000000#32, 0xFC000000#32⟩, by simp [opcodeTable], rfl, by
    simp only [OpcodeRow.Matches, encode, and_opcodeMask, opcodeOf_encodeI]; decide⟩

theorem addi (rs rt : RegIdx) (imm : Word) : Statement (.addi rs rt imm) :=
  ⟨⟨"ADDI", 0x20000000#32, 0xFC000000#32⟩, by simp [opcodeTable], rfl, by
    simp only [OpcodeRow.Matches, encode, and_opcodeMask, opcodeOf_encodeI]; decide⟩

theorem lw (rs rt : RegIdx) (imm : Word) : Statement (.lw rs rt imm) :=
  ⟨⟨"LW", 0x8C000000#32, 0xFC000000#32⟩, by simp [opcodeTable], rfl, by
    simp only [OpcodeRow.Matches, encode, and_opcodeMask, opcodeOf_encodeI]; decide⟩

theorem sw (rs rt : RegIdx) (imm : Word) : Statement (.sw rs rt imm) :=
  ⟨⟨"SW", 0xAC000000#32, 0xFC000000#32⟩, by simp [opcodeTable], rfl, by
    simp only [OpcodeRow.Matches, encode, and_opcodeMask, opcodeOf_encodeI]; decide⟩

theorem cachectl : Statement .cachectl :=
  ⟨⟨"CACHECTL", 0xF8000000#32, 0xFC000000#32⟩, by simp [opcodeTable], rfl, by decide⟩

theorem halt : Statement .halt :=
  ⟨⟨"HALT", 0xFC000000#32, 0xFC000000#32⟩, by simp [opcodeTable], rfl, by decide⟩

end Sys2Proof.Laws.OpcodeRow
end

