-- ==== Sys2Proof/Laws/Step.lean ====
section
/-! SUPPORT. What a step can do: said once, so that no later proof unfolds `step`. -/

namespace Sys2Proof.Machine

/-- The PC update either moves the PC inside the memory and clears the latch, or takes the fault (40_step_cycle.md R146). -/
theorem pcUpdate_cases (s : State) :
    ((newPc s).toNat < s.cfg.memorySize ∧ pcUpdate s = { s with pc := newPc s, next := none }) ∨
      (s.cfg.memorySize ≤ (newPc s).toNat ∧ pcUpdate s = takeFault { kind := .addressError, addr := newPc s } s) := by
  unfold pcUpdate
  split
  · next h => exact .inr ⟨h, rfl⟩
  · next h => exact .inl ⟨Nat.lt_of_not_le h, rfl⟩

/-- The PC update of a state with a known new PC inside the memory. -/
theorem pcUpdate_inside {s : State} {new : Word} (hn : newPc s = new) (h : new.toNat < s.cfg.memorySize) :
    pcUpdate s = { s with pc := new, next := none } := by
  unfold pcUpdate
  rw [hn, if_neg (by omega)]

/-- The PC update of a state with a known new PC outside the memory. -/
theorem pcUpdate_outside {s : State} {new : Word} (hn : newPc s = new) (h : s.cfg.memorySize ≤ new.toNat) :
    pcUpdate s = takeFault { kind := .addressError, addr := new } s := by
  unfold pcUpdate
  rw [hn, if_pos h]

/-- With the latch empty the new PC is the sequential one. -/
theorem newPc_none {s : State} (h : s.next = none) : newPc s = s.pc + 4#32 := by unfold newPc; rw [h]

/-- With a recorded target the new PC is the target. -/
theorem newPc_some {s : State} {target : Word} (h : s.next = some target) : newPc s = target := by unfold newPc; rw [h]

/-- A fetch that answers a word: the PC is aligned and inside the memory, and the word came through the bus. -/
theorem fetch_ok {s t : State} {w : Word} (h : fetch s = .ok (w, t)) :
    s.pc.toNat % 4 = 0 ∧ s.pc.toNat + 4 ≤ s.cfg.memorySize ∧ memRead s.pc s = .ok (w, t) := by
  unfold fetch at h
  split at h
  · cases h
  · next hc => exact ⟨by omega, by omega, h⟩

/-- Every meaning answers a next state: no instruction is refused and none stops the machine outside the spec's own fault
entry. -/
theorem exec_next (i : Instr) (s : State) : ∃ t, exec i s = .next t := by
  cases i with
  | lw rs rt imm => simp only [exec, execLw]; split <;> exact ⟨_, rfl⟩
  | sw rs rt imm => simp only [exec, execSw]; split <;> exact ⟨_, rfl⟩
  | add => exact ⟨_, rfl⟩
  | sub => exact ⟨_, rfl⟩
  | slt => exact ⟨_, rfl⟩
  | j => exact ⟨_, rfl⟩
  | jal => exact ⟨_, rfl⟩
  | beq => exact ⟨_, rfl⟩
  | bne => exact ⟨_, rfl⟩
  | addi => exact ⟨_, rfl⟩
  | cachectl => exact ⟨_, rfl⟩
  | halt => exact ⟨_, rfl⟩

/-- A step is one of four things: nothing, on a HALTED CPU; a fault of the fetch; a fault of the decode, after the fetch;
or the meaning of the decoded instruction, after the fetch (40_step_cycle.md R149). -/
theorem step_cases (s : State) :
    (s.run = .halted ∧ step s = .next s) ∨
      (s.run = .running ∧ ∃ e, fetch s = .error e ∧ step s = .next (takeFault e s)) ∨
      (s.run = .running ∧ ∃ w s' d, fetch s = .ok (w, s') ∧ decode w = .error d ∧ step s = .next (takeDecodeFault s')) ∨
      (s.run = .running ∧ ∃ w s' i, fetch s = .ok (w, s') ∧ decode w = .ok i ∧ step s = exec i (beginExecute s')) := by
  unfold step
  cases hrun : s.run with
  | halted => exact .inl ⟨rfl, rfl⟩
  | running =>
    cases hf : fetch s with
    | error e => exact .inr (.inl ⟨rfl, e, rfl, rfl⟩)
    | ok p =>
      obtain ⟨w, s'⟩ := p
      cases hd : decode w with
      | error d => exact .inr (.inr (.inl ⟨rfl, w, s', d, rfl, hd, by simp only [hd]⟩))
      | ok i => exact .inr (.inr (.inr ⟨rfl, w, s', i, rfl, hd, by simp only [hd]⟩))

/-- Every step answers a next state (60_exceptions.md R205: a fault is one). -/
theorem step_next (s : State) : step s = .next (afterStep s) := by
  have h : ∃ t, step s = .next t := by
    rcases step_cases s with ⟨-, h⟩ | ⟨-, e, -, h⟩ | ⟨-, w, s', d, -, -, h⟩ | ⟨-, w, s', i, -, -, h⟩
    · exact ⟨_, h⟩
    · exact ⟨_, h⟩
    · exact ⟨_, h⟩
    · obtain ⟨t, ht⟩ := exec_next i (beginExecute s')
      exact ⟨t, h.trans ht⟩
  obtain ⟨t, ht⟩ := h
  unfold afterStep
  rw [ht]

/-- A run of a HALTED CPU is over, whatever the fuel (40_step_cycle.md R151). -/
theorem runFor_halted {s : State} (h : s.run = .halted) (n : Nat) : runFor n s = .ended s := by
  cases n <;> simp only [runFor, h]

/-- A run of a RUNNING CPU is one step and the run from there (40_step_cycle.md R151). -/
theorem runFor_running {s : State} (h : s.run = .running) (n : Nat) : runFor (n + 1) s = runFor n (afterStep s) := by
  simp only [runFor, h]

/-- What `afterStep` answers. -/
theorem afterStep_eq {s t : State} (h : step s = .next t) : afterStep s = t := by
  unfold afterStep
  rw [h]

end Sys2Proof.Machine
end

