-- ==== Sys2Proof/Tests/Slice0.lean ====
section
/-! SUPPORT. The model's own tests, each a named theorem: ill-formed instructions refused, words written out from
30_encoding.md, one-step vectors of 95_test_vectors.md, and for each obligation with hypotheses a state and operands that
meet them all. -/

namespace Sys2Proof.Tests

open Sys2Proof.Machine

set_option Elab.async false

/-! ### WellFormed refuses what no word can carry (30_encoding.md R120, R125) -/

theorem test_beq_immediate_refused : (Instr.beq 1#5 2#5 0x00008000#32).WellFormed = false := by decide
theorem test_bne_immediate_refused : (Instr.bne 1#5 2#5 0xFFFF7FFF#32).WellFormed = false := by decide
theorem test_addi_immediate_refused : (Instr.addi 0#5 8#5 0x00010000#32).WellFormed = false := by decide
theorem test_lw_immediate_refused : (Instr.lw 8#5 9#5 0x80000000#32).WellFormed = false := by decide
theorem test_sw_immediate_refused : (Instr.sw 8#5 9#5 0x0000FFFF#32).WellFormed = false := by decide
theorem test_immediate_bounds_accepted :
    (Instr.addi 0#5 8#5 0xFFFF8000#32).WellFormed = true ∧ (Instr.lw 31#5 31#5 0x00007FFF#32).WellFormed = true := by decide

/-! ### Decode: fields written out from Tables F-R, F-I, F-J, F-S (30_encoding.md R113 to R116; Table V-DEC) -/

theorem test_decode_add : decode (0b000000#6 ++ 0b01010#5 ++ 0b01011#5 ++ 0b01010#5 ++ 0b11111#5 ++ 0b100000#6)
    = .ok (.add 10#5 11#5 10#5 31#5) := by decide
theorem test_decode_sub : decode (0b000000#6 ++ 0b01000#5 ++ 0b01001#5 ++ 0b01011#5 ++ 0b00000#5 ++ 0b100010#6)
    = .ok (.sub 8#5 9#5 11#5 0#5) := by decide
theorem test_decode_slt : decode (0b000000#6 ++ 0b01001#5 ++ 0b01000#5 ++ 0b01010#5 ++ 0b00000#5 ++ 0b101010#6)
    = .ok (.slt 9#5 8#5 10#5 0#5) := by decide
theorem test_decode_j : decode (0b000010#6 ++ 0x3FFFFFF#26) = .ok (.j 0x3FFFFFF#26) := by decide
theorem test_decode_jal : decode (0b000011#6 ++ 0x0000006#26) = .ok (.jal 6#26) := by decide
theorem test_decode_beq : decode (0b000100#6 ++ 0b01000#5 ++ 0b00000#5 ++ 0x0003#16) = .ok (.beq 8#5 0#5 3#32) := by decide
theorem test_decode_bne : decode (0b000101#6 ++ 0b01000#5 ++ 0b01001#5 ++ 0xFFFC#16) = .ok (.bne 8#5 9#5 0xFFFFFFFC#32) := by
  decide
theorem test_decode_addi : decode (0b001000#6 ++ 0b00000#5 ++ 0b01000#5 ++ 0x8000#16) = .ok (.addi 0#5 8#5 0xFFFF8000#32) := by
  decide
theorem test_decode_lw : decode (0b100011#6 ++ 0b11101#5 ++ 0b11111#5 ++ 0x0004#16) = .ok (.lw 29#5 31#5 4#32) := by decide
theorem test_decode_sw : decode (0b101011#6 ++ 0b11101#5 ++ 0b01000#5 ++ 0xFFFC#16) = .ok (.sw 29#5 8#5 0xFFFFFFFC#32) := by
  decide
theorem test_decode_cachectl : decode (0b111110#6 ++ 0x3FFFFFF#26) = .ok .cachectl := by decide
theorem test_decode_halt : decode (0b111111#6 ++ 0x0000000#26) = .ok .halt := by decide

/-- Table V-DEC: MIPS `nop`, ADDU, JR, SYSCALL and five illegal opcodes. -/
theorem test_decode_illegal :
    decode 0x00000000#32 = .error (.badFunct 0x00#6) ∧ decode 0x00000021#32 = .error (.badFunct 0x21#6) ∧
      decode 0x00000008#32 = .error (.badFunct 0x08#6) ∧ decode 0x0000000C#32 = .error (.badFunct 0x0C#6) ∧
      decode 0x04000000#32 = .error (.badOpcode 0x01#6) ∧ decode 0x34000000#32 = .error (.badOpcode 0x0D#6) ∧
      decode 0x3C080001#32 = .error (.badOpcode 0x0F#6) ∧ decode 0x80000000#32 = .error (.badOpcode 0x20#6) ∧
      decode 0xF4000000#32 = .error (.badOpcode 0x3D#6) := by decide

/-- R125: the encoder's words, the special row's with its ignored bits at 0. -/
theorem test_encode :
    encode (.add 10#5 11#5 10#5 0#5) = 0x014B5020#32 ∧ encode (.addi 8#5 8#5 0xFFFFFFFF#32) = 0x2108FFFF#32 ∧
      encode (.j 2#26) = 0x08000002#32 ∧ encode .halt = 0xFC000000#32 ∧ encode .cachectl = 0xF8000000#32 := by decide

/-- R112, 20_memory.md R53: the bytes of a word in memory order, most significant first; three bytes are no instruction. -/
theorem test_decode_bytes :
    decodeBytes [0x20#8, 0x08#8, 0x00#8, 0x05#8, 0xAA#8] = .ok (.addi 0#5 8#5 5#32, [0xAA#8]) ∧
      decodeBytes [0x20#8, 0x08#8, 0x00#8] = .error .truncated ∧
      decodeTableWord 32 0x20080005 = some (.addi 0#5 8#5 5#32) ∧ decodeTableWord 32 0x24000000 = none := by decide

/-! ### A small machine -/

/-- 64 bytes of memory, a gap, I/O from 0x100, four lines of eight bytes; a geometry no vector of the spec uses. -/
def tiny : Config where
  memorySize := 64
  ioBase := 0x100
  cacheSize := 32
  lineSize := 8
  inputValue := 21
  cacheEnabledAtReset := true
  haltAdvancesPc := false

/-- The same machine with HALT advancing the PC. -/
def tinyAdvancing : Config := { tiny with haltAdvancesPc := true }

/-- The same machine built with the cache off. -/
def tinyUncached : Config := { tiny with cacheEnabledAtReset := false }

/-- A built machine with words placed from address 0 on. -/
def boot (c : Config) (ws : List Word) : State :=
  { State.init c with
    mem := writeBytes [] 0 (ws.flatMap fun w => [wordByte w 0, wordByte w 1, wordByte w 2, wordByte w 3]) }

/-- Registers set one after another. -/
def withRegs (rs : List (RegIdx × Word)) (s : State) : State := rs.foldl (fun t p => writeReg p.1 p.2 t) s

/-- One instruction on a machine whose memory is empty. -/
def after (i : Instr) (rs : List (RegIdx × Word)) : State :=
  match exec i (withRegs rs (boot tiny [])) with
  | .next t => t
  | .fault _ => boot tiny []
  | .refused _ => boot tiny []

/-- `MemRead` by the host, its word dropped. -/
def hostRead (a : Word) (s : State) : State := applyHostOp (.memRead a) s

/-! ### One step of each instruction (expected values from 95_test_vectors.md Tables V-ALU, V-LS, V-CT, V-SYS) -/

theorem test_add_wraps : readReg 10#5 (after (.add 8#5 9#5 10#5 0#5) [(8#5, 0xFFFFFFFF#32), (9#5, 1#32)]) = 0#32 := by decide
theorem test_add_same_register : readReg 8#5 (after (.add 8#5 8#5 8#5 0#5) [(8#5, 0x7FFC#32)]) = 0xFFF8#32 := by decide
theorem test_sub_order : readReg 10#5 (after (.sub 8#5 9#5 10#5 0#5) [(8#5, 7#32), (9#5, 0xFFFFFFFD#32)]) = 10#32 := by decide
theorem test_sub_borrow : readReg 10#5 (after (.sub 0#5 9#5 10#5 0#5) [(9#5, 1#32)]) = 0xFFFFFFFF#32 := by decide
theorem test_slt_least : readReg 10#5 (after (.slt 8#5 9#5 10#5 0#5) [(8#5, 0x80000000#32), (9#5, 0x7FFFFFFF#32)]) = 1#32 := by
  decide
theorem test_slt_signed : readReg 10#5 (after (.slt 8#5 9#5 10#5 0#5) [(8#5, 7#32), (9#5, 0xFFFFFFFD#32)]) = 0#32 := by decide
theorem test_addi_negative : readReg 9#5 (after (.addi 8#5 9#5 0xFFFFFFFF#32) [(8#5, 5#32)]) = 4#32 := by decide
theorem test_addi_zero_register : after (.addi 0#5 0#5 5#32) [] = { boot tiny [] with pc := 4#32 } := by decide +kernel
theorem test_beq_taken : (after (.beq 8#5 0#5 3#32) []).pc = 16#32 ∧ (after (.beq 8#5 0#5 3#32) [(8#5, 5#32)]).pc = 4#32 := by
  decide
theorem test_beq_below_zero_faults :
    (after (.beq 0#5 0#5 0xFFFFFFFE#32) []).fault = some { kind := .addressError, pc := 0#32, addr := 0xFFFFFFFC#32 } ∧
      (after (.beq 0#5 0#5 0xFFFFFFFE#32) []).pc = 0#32 := by decide
theorem test_bne_never_on_itself : (after (.bne 8#5 8#5 100#32) [(8#5, 3#32)]).pc = 4#32 := by decide
theorem test_bne_taken : (after (.bne 8#5 9#5 2#32) [(8#5, 0x204#32), (9#5, 0x210#32)]).pc = 12#32 := by decide
theorem test_j : (after (.j 2#26) []).pc = 8#32 := by decide
theorem test_j_keeps_region : jumpTarget 0x10000014#32 2#26 = 0x10000008#32 := by decide
theorem test_jal_links : readReg 31#5 (after (.jal 6#26) []) = 4#32 ∧ (after (.jal 6#26) []).pc = 24#32 := by decide
theorem test_jal_link_stays_when_the_target_faults :
    readReg 31#5 (after (.jal 0x4000#26) []) = 4#32 ∧ (after (.jal 0x4000#26) []).pc = 0#32 ∧
      (after (.jal 0x4000#26) []).fault = some { kind := .addressError, pc := 0#32, addr := 0x10000#32 } := by decide
theorem test_lw_input_register :
    readReg 9#5 (after (.lw 8#5 9#5 0#32) [(8#5, 0x100#32)]) = 21#32 ∧
      (after (.lw 8#5 9#5 0#32) [(8#5, 0x100#32)]).ioReads = 1 := by decide +kernel
theorem test_lw_alignment_before_region :
    (after (.lw 8#5 9#5 1#32) [(8#5, 0x100#32)]).fault = some { kind := .addressError, pc := 0#32, addr := 0x101#32 } ∧
      (after (.lw 8#5 9#5 12#32) [(8#5, 0x100#32)]).fault = some { kind := .ioAddressError, pc := 0#32, addr := 0x10C#32 } := by
  decide +kernel
theorem test_sw_big_endian : (after (.sw 0#5 9#5 16#32) [(9#5, 0x01020304#32)]).mem
    = [(16, 1#8), (17, 2#8), (18, 3#8), (19, 4#8)] := by decide +kernel
theorem test_sw_output_register :
    (after (.sw 8#5 9#5 4#32) [(8#5, 0x100#32), (9#5, 0x2A#32)]).outLog = [0x2A#32] ∧
      (after (.sw 8#5 9#5 8#32) [(8#5, 0x100#32), (9#5, 1#32)]).run = .running := by decide +kernel
theorem test_cachectl : after .cachectl [] = { boot tiny [] with pc := 4#32 } := by decide +kernel
theorem test_halt : after .halt [] = { boot tiny [] with run := .halted } := by decide +kernel

/-- F-ILL of 95_test_vectors.md: the word 0 is a DecodeError of the first step after reset; its fetch counted. -/
theorem test_reset_step_is_a_decode_fault :
    (afterStep State.reset).fault = some { kind := .decodeError, pc := 0#32, addr := 0#32 } ∧
      (afterStep State.reset).memReads = 1 ∧ (afterStep State.reset).misses = 1 := by decide +kernel
theorem test_with_fetch_word : readReg 8#5 (afterStep (State.reset.withFetchWord 32 0x20080005)) = 5#32 := by decide +kernel

/-! ### The cache (95_test_vectors.md S3, S4, S8) -/

theorem test_s3_miss_then_hit :
    (hostRead 0x100#32 (hostRead 0x100#32 State.reset)).hits = 1 ∧
      (hostRead 0x100#32 (hostRead 0x100#32 State.reset)).misses = 1 ∧
      hitRate (hostRead 0x100#32 (hostRead 0x100#32 State.reset)) = 1 / 2 := by decide +kernel
theorem test_s4_write_miss :
    (applyHostOp (.memWrite 0x100#32 0xAABBCCDD#32) State.reset).misses = 1 ∧
      (lineAt (applyHostOp (.memWrite 0x100#32 0xAABBCCDD#32) State.reset) 8).valid = false := by decide +kernel
theorem test_s8_toggle :
    ¬Resident (applyHostOp (.cacheToggle true) (applyHostOp (.cacheToggle false) (hostRead 0x80#32 State.reset))) 0x80#32 := by
  decide +kernel

/-! ### States for the witnesses -/

/-- ADDI $8,$0,5 at the start. -/
def sAddi : State := boot tiny [0x20080005#32]
/-- A store to its own block: SW $9,8($0). -/
def sSw : State := withRegs [(9#5, 0x01020304#32)] (boot tiny [0xAC090008#32])
/-- HALT at the start. -/
def sHalt : State := boot tiny [0xFC000000#32]
/-- An illegal word at the start. -/
def sIllegal : State := boot tiny [0x00000000#32]
/-- LW $9,2($0), misaligned. -/
def sMisaligned : State := boot tiny [0x8C090002#32]
/-- LW $9,0x10C($0), unregistered I/O. -/
def sUnregistered : State := boot tiny [0x8C09010C#32]
/-- The same with the word at 8 in the cache. -/
def sWarm : State := hostRead 8#32 sSw
/-- A machine with the cache off. -/
def sUncached : State := boot tinyUncached [0xAC090008#32]
/-- A CPU at the last word of memory. -/
def sLast : State := { boot tiny [] with pc := 60#32 }

/-- An instruction that falls through completes here: no target is recorded, and the next address is inside the memory. -/
abbrev FallsThrough (s : State) : Prop := s.next = none ∧ (s.pc + 4#32).toNat < s.cfg.memorySize

/-- An offset from `$zero` that names a word of memory. -/
abbrev NamesWord (s : State) (imm : Word) : Prop :=
  (readReg 0#5 s + imm).toNat % 4 = 0 ∧ (readReg 0#5 s + imm).toNat < s.cfg.memorySize

theorem witness_legal : tiny.Legal ∧ tinyAdvancing.Legal ∧ tinyUncached.Legal ∧ Config.standard.Legal := by decide

/-- The invariant of a state, part by part, each part decided. -/
theorem inv_of {s : State} (h1 : s.cfg.Legal) (h2 : Memory.wf s.mem = true) (h3 : ∀ c ∈ s.mem, c.1 < s.cfg.memorySize)
    (h4 : s.lines.length = s.cfg.numLines) (h5 : ∀ l ∈ s.lines, l.data.length = s.cfg.lineSize)
    (h6 : ∀ i, i < s.cfg.numLines → LineCoherent s i) (h7 : s.cacheEnabled = false → ∀ l ∈ s.lines, l.valid = false)
    (h8 : s.regs[0] = 0#32) (h9 : s.pc.toNat % 4 = 0) (h10 : s.pc.toNat < s.cfg.memorySize) (h11 : s.next = none)
    (h12 : s.fault = none) : s.Inv :=
  { legal := h1, memWf := h2, memInside := h3, lineCount := h4, lineData := h5, coherent := h6, disabledEmpty := h7
    zeroReg := h8, pcAligned := h9, pcInBounds := h10, latchClear := h11
    faultHalted := fun h => absurd h12 h, faultRecord := fun f hf => by rw [h12] at hf; cases hf }

theorem inv_sAddi : sAddi.Inv := by
  apply inv_of <;> decide +kernel
theorem inv_sSw : sSw.Inv := by
  apply inv_of <;> decide +kernel
theorem inv_sHalt : sHalt.Inv := by
  apply inv_of <;> decide +kernel
theorem inv_sIllegal : sIllegal.Inv := by
  apply inv_of <;> decide +kernel
theorem inv_sMisaligned : sMisaligned.Inv := by
  apply inv_of <;> decide +kernel
theorem inv_sUnregistered : sUnregistered.Inv := by
  apply inv_of <;> decide +kernel
theorem inv_sWarm : sWarm.Inv := by
  apply inv_of <;> decide +kernel
theorem inv_sUncached : sUncached.Inv := by
  apply inv_of <;> decide +kernel
theorem inv_sLast : sLast.Inv := by
  apply inv_of <;> decide +kernel

/-! ### Witnesses: for each obligation with hypotheses, a state and operands that meet them together -/

theorem witness_DecodeOfEncodeIsTheInstruction :
    (Instr.add 31#5 0#5 31#5 31#5).WellFormed = true ∧ (Instr.beq 8#5 0#5 0xFFFF8000#32).WellFormed = true ∧
      (Instr.sw 29#5 8#5 0x00007FFF#32).WellFormed = true ∧ Instr.halt.WellFormed = true := by decide

theorem witness_EncodeOfDecodeIsTheCanonicalWord :
    decode 0x03FFFFE0#32 = .ok (.add 31#5 31#5 31#5 31#5) ∧ decode 0xFFFFFFFF#32 = .ok .halt := by decide

theorem witness_DecodeFollowsTheOpcodeTable :
    (⟨"ADD", 0x00000020#32, 0xFC00003F#32⟩ : OpcodeRow) ∈ opcodeTable ∧
      (⟨"ADD", 0x00000020#32, 0xFC00003F#32⟩ : OpcodeRow).Matches 0x014B5020#32 := by decide

theorem witness_FunctMapUnderOpcodeZero :
    opcodeOf 0x014B5020#32 = 0x00#6 ∧ functOf 0x014B5020#32 = 0x20#6 ∧ functOf 0x01095822#32 = 0x22#6 ∧
      functOf 0x0128502A#32 = 0x2A#6 ∧ functOf 0x00000021#32 ∉ [0x20#6, 0x22#6, 0x2A#6] := by decide

theorem witness_LabelResolutionInvertsTheTargets :
    branchImmFor 0x00000008#32 0x00000018#32 = some 3#32 ∧ branchImmFor 0x00000008#32 0x0002_0008#32 = some 0x00007FFF#32 ∧
      branchImmFor 0x00020000#32 0x00000004#32 = some 0xFFFF8000#32 ∧
      branchImmFor 0x00000008#32 0x0002_000C#32 = none ∧ branchImmFor 0x00000008#32 0x00000016#32 = none ∧
      branchImmFor 0x00020000#32 0x00000000#32 = none ∧
      jumpTargetFor 0x00000014#32 0x0000000A#32 = none ∧ jumpTargetFor 0x00000014#32 0x10000008#32 = none ∧
      jumpTargetFor 0x00000014#32 0x00000008#32 = some 2#26 ∧
      jumpTargetFor 0x10000014#32 0x1FFFFFFC#32 = some 0x3FFFFFF#26 := by decide

theorem witness_StepRunsTheDecodedInstruction :
    sAddi.run = .running ∧ (∃ s', fetch sAddi = .ok (0x20080005#32, s')) ∧
      decode 0x20080005#32 = .ok (.addi 0#5 8#5 5#32) :=
  ⟨rfl, ⟨(cacheRead 0#32 (countMemRead sAddi)).2, by decide +kernel⟩, by decide⟩

theorem witness_StepRunsTheInstructionInMemory :
    sAddi.Inv ∧ sUncached.Inv ∧
      (sAddi.run = .running ∧ sAddi.cacheEnabled = true ∧
        decode (backRead sAddi.mem sAddi.pc.toNat) = .ok (.addi 0#5 8#5 5#32)) ∧
      (sUncached.run = .running ∧ sUncached.cacheEnabled = false ∧
        decode (backRead sUncached.mem sUncached.pc.toNat) = .ok (.sw 0#5 9#5 8#32)) :=
  ⟨inv_sAddi, inv_sUncached, by decide +kernel⟩

theorem witness_FetchChecksThePcAndReadsThroughTheBus :
    sLast.Inv ∧ sUncached.Inv ∧
      ({ sAddi with pc := 2#32 }.run = .running ∧ { sAddi with pc := 2#32 }.pc.toNat % 4 ≠ 0) ∧
      ({ sAddi with pc := 64#32 }.run = .running ∧ tiny.memorySize < { sAddi with pc := 64#32 }.pc.toNat + 4) ∧
      (sLast.pc.toNat % 4 = 0 ∧ sLast.pc.toNat + 4 ≤ sLast.cfg.memorySize) :=
  ⟨inv_sLast, inv_sUncached, by decide +kernel⟩

theorem witness_IllegalWordTakesTheDecodeFault :
    (sIllegal.run = .running ∧ (∃ s', fetch sIllegal = .ok (0x00000000#32, s')) ∧ opcodeOf 0x00000000#32 = 0x00#6 ∧
        functOf 0x00000000#32 ∉ [0x20#6, 0x22#6, 0x2A#6]) ∧
      (∃ s', fetch (boot tiny [0x24000000#32]) = .ok (0x24000000#32, s')) ∧
      opcodeOf 0x24000000#32 ∉
        [0x00#6, 0x02#6, 0x03#6, 0x04#6, 0x05#6, 0x08#6, 0x23#6, 0x2B#6, 0x3E#6, 0x3F#6] :=
  ⟨⟨by decide +kernel, ⟨(cacheRead 0#32 (countMemRead sIllegal)).2, by decide +kernel⟩, by decide, by decide⟩,
    ⟨(cacheRead 0#32 (countMemRead (boot tiny [0x24000000#32]))).2, by decide +kernel⟩, by decide⟩

theorem witness_HaltedStepChangesNothing : (afterStep sHalt).run = .halted ∧ (afterStep sIllegal).run = .halted := by
  decide +kernel

/-- Each of the three reports, and the HALT clause. -/
theorem witness_StepReportsItsOutcome :
    (sAddi.Inv ∧ sIllegal.Inv ∧ sMisaligned.Inv ∧ sHalt.Inv) ∧
      stepReport sAddi = .ok ∧ stepReport sIllegal = .faulted .decodeError ∧
      stepReport sMisaligned = .faulted .addressError ∧ stepReport (afterStep sHalt) = .halted ∧
      (sHalt.run = .running ∧ decode (backRead sHalt.mem sHalt.pc.toNat) = .ok .halt ∧ sHalt.cfg.haltAdvancesPc = false) :=
  ⟨⟨inv_sAddi, inv_sIllegal, inv_sMisaligned, inv_sHalt⟩, by decide +kernel⟩

/-- Each of the three kinds. -/
theorem witness_FaultingStepKeepsThePc :
    (sIllegal.Inv ∧ sIllegal.run = .running ∧ step sIllegal = .next (afterStep sIllegal) ∧
        (afterStep sIllegal).fault = some { kind := .decodeError, pc := 0#32, addr := 0#32 }) ∧
      (sMisaligned.Inv ∧ step sMisaligned = .next (afterStep sMisaligned) ∧
        (afterStep sMisaligned).fault = some { kind := .addressError, pc := 0#32, addr := 2#32 }) ∧
      (sUnregistered.Inv ∧ step sUnregistered = .next (afterStep sUnregistered) ∧
        (afterStep sUnregistered).fault = some { kind := .ioAddressError, pc := 0#32, addr := 0x10C#32 }) :=
  ⟨⟨inv_sIllegal, by decide +kernel, step_next _, by decide +kernel⟩, ⟨inv_sMisaligned, step_next _, by decide +kernel⟩,
    inv_sUnregistered, step_next _, by decide +kernel⟩

theorem witness_HaltedIsTerminalAndReachedByHaltOrFault :
    (sHalt.Inv ∧ sHalt.run = .running ∧ step sHalt = .next (afterStep sHalt)) ∧
      ((afterStep sHalt).run = .halted ∧ step (afterStep sHalt) = .next (afterStep sHalt)) :=
  ⟨⟨inv_sHalt, by decide +kernel, step_next _⟩, by decide +kernel, by
    have h : (afterStep sHalt).run = .halted := by decide +kernel
    unfold step; simp only [h]; rfl⟩

theorem witness_RunIsTheClosureOfTheStep :
    runFor 1 sHalt = .ended (afterStep sHalt) ∧ 1 ≤ 3 ∧ Steps sHalt (afterStep sHalt) ∧ RunOver (afterStep sHalt) :=
  ⟨by decide +kernel, by decide, .step _ _ _ (step_next _) (.refl _), by decide +kernel⟩

/-- Shared by the register forms and CACHECTL: a state with the latch empty and the next address inside the memory, at the last
PC for which that holds. -/
theorem witness_SequentialForms :
    { sAddi with pc := 56#32 }.next = none ∧ ({ sAddi with pc := 56#32 }.pc + 4#32).toNat < tiny.memorySize := by decide +kernel

theorem witness_AddWritesTheWrappedSum : sAddi.next = none ∧ (sAddi.pc + 4#32).toNat < sAddi.cfg.memorySize := by decide +kernel
theorem witness_SubWritesTheWrappedDifference : sAddi.next = none ∧ (sAddi.pc + 4#32).toNat < sAddi.cfg.memorySize := by
  decide +kernel
theorem witness_SltWritesTheSignedComparison : sAddi.next = none ∧ (sAddi.pc + 4#32).toNat < sAddi.cfg.memorySize := by
  decide +kernel
theorem witness_AddiWritesTheWrappedSum : sAddi.next = none ∧ (sAddi.pc + 4#32).toNat < sAddi.cfg.memorySize := by decide +kernel

/-- The last word of memory, with each of the five forms and its value. -/
theorem witness_FallingOffMemoryFaultsAfterTheRegisterWrite :
    sLast.next = none ∧ sLast.cfg.memorySize ≤ (sLast.pc + 4#32).toNat ∧
      (∃ rs rt sh, Instr.add 29#5 29#5 10#5 0#5 = .add rs rt 10#5 sh ∧
        0xFFFFFFFE#32 = readReg rs sLast + readReg rt sLast) ∧
      (∃ rs rt sh, Instr.sub 0#5 29#5 10#5 0#5 = .sub rs rt 10#5 sh ∧
        0x80000001#32 = readReg rs sLast - readReg rt sLast) ∧
      (∃ rs rt sh, Instr.slt 0#5 29#5 10#5 0#5 = .slt rs rt 10#5 sh ∧
        1#32 = if (readReg rs sLast).toInt < (readReg rt sLast).toInt then 1#32 else 0#32) ∧
      (∃ rs imm, Instr.addi 29#5 0#5 1#32 = .addi rs 0#5 imm ∧ 0x80000000#32 = readReg rs sLast + imm) ∧
      (Instr.cachectl = .cachectl ∧ (0#5 : RegIdx) = 0#5) :=
  ⟨by decide +kernel, by decide +kernel, ⟨29#5, 29#5, 0#5, rfl, by decide +kernel⟩, ⟨0#5, 29#5, 0#5, rfl, by decide +kernel⟩,
    ⟨0#5, 29#5, 0#5, rfl, by decide +kernel⟩, ⟨29#5, 1#32, rfl, by decide +kernel⟩, rfl, rfl⟩

/-- The first and the last word of memory, with the cache on and off. -/
theorem witness_LwFromMemoryLoadsTheWord :
    sSw.BusInv ∧ sUncached.BusInv ∧
      (FallsThrough sSw ∧ sSw.cacheEnabled = true ∧ NamesWord sSw 0#32 ∧ NamesWord sSw 60#32) ∧
      (FallsThrough sUncached ∧ sUncached.cacheEnabled = false ∧ NamesWord sUncached 0#32 ∧ NamesWord sUncached 60#32) :=
  ⟨inv_sSw.toBusInv, inv_sUncached.toBusInv, by decide +kernel⟩

/-- Each of the three registers. -/
theorem witness_LwFromIoReadsTheRegister :
    sSw.cfg.Legal ∧ sSw.next = none ∧ (sSw.pc + 4#32).toNat < sSw.cfg.memorySize ∧
      (readReg 0#5 sSw + 0x100#32).toNat = sSw.cfg.ioBase + 0 ∧ sSw.io.input = 21#32 ∧
      (readReg 0#5 sSw + 0x104#32).toNat = sSw.cfg.ioBase + 4 ∧ sSw.io.output = 0#32 ∧
      (readReg 0#5 sSw + 0x108#32).toNat = sSw.cfg.ioBase + 8 ∧ sSw.io.status = 0#32 := by decide +kernel

/-- Misaligned in memory and in the I/O region; the first and the last word of the gap; the first unregistered I/O word and
the last word of all; none of the three clauses shares an address with another. -/
theorem witness_LwAndSwFaultOnBadAddresses :
    sSw.cfg.Legal ∧ (readReg 0#5 sSw + 1#32).toNat % 4 ≠ 0 ∧ (readReg 0#5 sSw + 0x101#32).toNat % 4 ≠ 0 ∧
      ((readReg 0#5 sSw + 64#32).toNat % 4 = 0 ∧ sSw.cfg.memorySize ≤ (readReg 0#5 sSw + 64#32).toNat ∧
        (readReg 0#5 sSw + 64#32).toNat < sSw.cfg.ioBase) ∧
      ((readReg 0#5 sSw + 0xFC#32).toNat % 4 = 0 ∧ sSw.cfg.memorySize ≤ (readReg 0#5 sSw + 0xFC#32).toNat ∧
        (readReg 0#5 sSw + 0xFC#32).toNat < sSw.cfg.ioBase) ∧
      ((readReg 0#5 sSw + 0x10C#32).toNat % 4 = 0 ∧ sSw.cfg.ioBase ≤ (readReg 0#5 sSw + 0x10C#32).toNat ∧
        (readReg 0#5 sSw + 0x10C#32).toNat ∉ [sSw.cfg.ioBase, sSw.cfg.ioBase + 4, sSw.cfg.ioBase + 8]) ∧
      ((readReg 0#5 sSw + 0xFFFFFFFC#32).toNat % 4 = 0 ∧ sSw.cfg.ioBase ≤ (readReg 0#5 sSw + 0xFFFFFFFC#32).toNat ∧
        (readReg 0#5 sSw + 0xFFFFFFFC#32).toNat ∉ [sSw.cfg.ioBase, sSw.cfg.ioBase + 4, sSw.cfg.ioBase + 8]) := by
  decide +kernel

/-- A store to a resident line and one to a line that is not resident, at the first and the last word; and the cache off. -/
theorem witness_SwToMemoryStoresTheWord :
    sWarm.BusInv ∧ sUncached.BusInv ∧
      (FallsThrough sWarm ∧ sWarm.cacheEnabled = true ∧ Resident sWarm 8#32 ∧ NamesWord sWarm 8#32 ∧
        ¬Resident sWarm 60#32 ∧ NamesWord sWarm 60#32 ∧ NamesWord sWarm 0#32) ∧
      (FallsThrough sUncached ∧ sUncached.cacheEnabled = false ∧ NamesWord sUncached 60#32) :=
  ⟨inv_sWarm.toBusInv, inv_sUncached.toBusInv, by decide +kernel⟩

theorem witness_SwToIoWritesTheRegister :
    sSw.cfg.Legal ∧ sSw.next = none ∧ (sSw.pc + 4#32).toNat < sSw.cfg.memorySize ∧
      (readReg 0#5 sSw + 0x100#32).toNat = sSw.cfg.ioBase ∧ (readReg 0#5 sSw + 0x104#32).toNat = sSw.cfg.ioBase + 4 ∧
      (readReg 0#5 sSw + 0x108#32).toNat = sSw.cfg.ioBase + 8 := by decide +kernel

theorem witness_LwAndSwAtTheEndOfMemoryFaultAfterTheAccess :
    sLast.next = none ∧ sLast.cfg.memorySize ≤ (sLast.pc + 4#32).toNat ∧
      memRead (readReg 0#5 sLast + 8#32) sLast = .ok (0#32, hostRead 8#32 sLast) ∧
      memWrite (readReg 0#5 sLast + 8#32) (readReg 29#5 sLast) sLast
        = .ok (applyHostOp (.memWrite 8#32 0x7FFFFFFF#32) sLast) := by decide +kernel

theorem witness_StoreIsSeenByTheNextFetch :
    sWarm.BusInv ∧ (∃ t, exec (.sw 0#5 9#5 8#32) sWarm = .next t) ∧ NamesWord sWarm 8#32 :=
  ⟨inv_sWarm.toBusInv, exec_next _ _, by decide +kernel⟩

/-- Taken and not taken, inside the memory (the last word) and outside it (the first address past it). -/
theorem witness_BeqGoesToItsTargetWhenEqual :
    sAddi.next = none ∧ readReg 0#5 sAddi = readReg 8#5 sAddi ∧ readReg 0#5 sAddi ≠ readReg 29#5 sAddi ∧
      (sAddi.pc + 4#32 + (14#32 <<< 2)).toNat < sAddi.cfg.memorySize ∧
      sAddi.cfg.memorySize ≤ (sAddi.pc + 4#32 + (15#32 <<< 2)).toNat := by decide +kernel

theorem witness_BneGoesToItsTargetWhenDifferent :
    sAddi.next = none ∧ readReg 0#5 sAddi = readReg 8#5 sAddi ∧ readReg 0#5 sAddi ≠ readReg 29#5 sAddi ∧
      (sAddi.pc + 4#32 + (14#32 <<< 2)).toNat < sAddi.cfg.memorySize ∧
      sAddi.cfg.memorySize ≤ (sAddi.pc + 4#32 + (15#32 <<< 2)).toNat := by decide +kernel

theorem witness_JGoesToItsTarget :
    ((sAddi.pc &&& 0xF0000000#32) ||| ((15#26).setWidth 32 <<< 2)).toNat < sAddi.cfg.memorySize ∧
      sAddi.cfg.memorySize ≤ ((sAddi.pc &&& 0xF0000000#32) ||| ((16#26).setWidth 32 <<< 2)).toNat := by decide +kernel

theorem witness_JalLinksAndJumps :
    ((sAddi.pc &&& 0xF0000000#32) ||| ((15#26).setWidth 32 <<< 2)).toNat < sAddi.cfg.memorySize ∧
      sAddi.cfg.memorySize ≤ ((sAddi.pc &&& 0xF0000000#32) ||| ((16#26).setWidth 32 <<< 2)).toNat := by decide +kernel

theorem witness_BranchTargetIsPcRelative :
    ImmFits 0xFFFF8000#32 ∧ ImmFits 0x00007FFF#32 ∧ (0x20#32).toNat % 4 = 0 := by decide

theorem witness_JumpTargetStaysInItsRegion :
    tiny.memorySize ≤ 2 ^ 28 ∧ (60#32).toNat < tiny.memorySize := by decide

/-- The switch off, and on with the next address inside and outside the memory. -/
theorem witness_HaltHaltsWithoutAFault :
    sHalt.cfg.haltAdvancesPc = false ∧
      ((boot tinyAdvancing []).cfg.haltAdvancesPc = true ∧ (boot tinyAdvancing []).next = none ∧
        ((boot tinyAdvancing []).pc + 4#32).toNat < (boot tinyAdvancing []).cfg.memorySize) ∧
      tinyAdvancing.memorySize ≤ ({ boot tinyAdvancing [] with pc := 60#32 }.pc + 4#32).toNat := by decide +kernel

theorem witness_CachectlOnlyAdvances : sAddi.next = none ∧ (sAddi.pc + 4#32).toNat < sAddi.cfg.memorySize := by decide +kernel

theorem witness_RegisterOnlyFormsFrame :
    (∀ rs rt imm, Instr.jal 6#26 ≠ .lw rs rt imm ∧ Instr.jal 6#26 ≠ .sw rs rt imm) ∧
      (∃ t, exec (.jal 6#26) sAddi = .next t) ∧ destReg (.jal 6#26) ≠ some 8#5 :=
  ⟨fun _ _ _ => ⟨by simp, by simp⟩, exec_next _ _, by decide⟩

theorem witness_LwFrame : ∃ t, exec (.lw 0#5 9#5 8#32) sSw = .next t ∧ (8#5 : RegIdx) ≠ 9#5 := by
  obtain ⟨t, ht⟩ := exec_next (.lw 0#5 9#5 8#32) sSw
  exact ⟨t, ht, by decide⟩

/-- A word of memory, and an address that is none. -/
theorem witness_SwFrame :
    (∃ t, exec (.sw 0#5 9#5 8#32) sWarm = .next t) ∧ (∃ t, exec (.sw 0#5 9#5 0x104#32) sWarm = .next t) ∧
      Memory.wf sWarm.mem = true ∧ effectiveAddress 0#5 8#32 sWarm = 8#32 ∧ effectiveAddress 0#5 0x104#32 sWarm = 0x104#32 :=
  ⟨exec_next _ _, exec_next _ _, by decide +kernel⟩

theorem witness_OnlySwWritesMemoryOrIo : sAddi.Inv ∧ (∃ t, step sAddi = .next t) ∧ sSw.Inv ∧ ∃ t, step sSw = .next t :=
  ⟨inv_sAddi, ⟨_, step_next _⟩, inv_sSw, ⟨_, step_next _⟩⟩

theorem witness_RegisterZeroStaysZero : sAddi.regs[0] = 0#32 ∧ step sAddi = .next (afterStep sAddi) :=
  ⟨by decide +kernel, step_next _⟩

theorem witness_BuildLeavesTheResetValues : tiny.Legal ∧ tinyUncached.Legal := by decide

/-- An illegal configuration: a line too small for a word. -/
theorem witness_IllegalConfigurationBuildsNothing :
    buildMachine { tiny with lineSize := 2 } = .fault .configurationError ∧ buildMachine tiny = .next (State.init tiny) :=
  ⟨if_neg (by decide), if_pos (by decide)⟩

/-- A load that just fits, and one byte more. -/
theorem witness_LoadProgramPlacesTheBytes :
    Memory.wf sSw.mem = true ∧ (60#32).toNat + [1#8, 2#8, 3#8, 4#8].length ≤ sSw.cfg.memorySize ∧
      sSw.cfg.memorySize < (60#32).toNat + [1#8, 2#8, 3#8, 4#8, 5#8].length := by decide +kernel

/-- Two words, the last of memory among them; one misaligned; one outside. -/
theorem witness_LoadWordsStoresTheMap :
    Memory.wf sSw.mem = true ∧
      (∀ p ∈ [(0#32, 5#32), (60#32, 6#32)], p.1.toNat % 4 = 0 ∧ p.1.toNat + 4 ≤ sSw.cfg.memorySize) ∧
      ([((0#32 : Word), (5#32 : Word)), (60#32, 6#32)].map Prod.fst).Nodup ∧
      (∃ p ∈ [((2#32 : Word), (5#32 : Word))], ¬(p.1.toNat % 4 = 0 ∧ p.1.toNat + 4 ≤ sSw.cfg.memorySize)) ∧
      (∃ p ∈ [((64#32 : Word), (5#32 : Word))], ¬(p.1.toNat % 4 = 0 ∧ p.1.toNat + 4 ≤ sSw.cfg.memorySize)) :=
  ⟨by decide +kernel, List.forall_mem_cons.mpr ⟨by decide +kernel, List.forall_mem_singleton.mpr (by decide +kernel)⟩,
    by decide, ⟨_, List.mem_cons_self .., by decide +kernel⟩,
    ⟨_, List.mem_cons_self .., by decide +kernel⟩⟩

theorem witness_TogglingTheCacheInvalidatesIt :
    (applyHostOp .step (cacheToggle false sWarm)).lines = (cacheToggle false sWarm).lines ∧ Resident sWarm 8#32 := by
  decide +kernel

theorem witness_HitRateIsTheExactRatio :
    sSw.hits + sSw.misses = 0 ∧ sWarm.hits + sWarm.misses ≠ 0 ∧ sWarm.cacheEnabled = true ∧ sUncached.cacheEnabled = false := by
  decide +kernel

theorem witness_WordsAreBigEndian : Memory.wf sSw.mem = true := by decide +kernel

/-- The spec's test geometry, one line of one word, and the largest cache. -/
theorem witness_AddressSplitIsExact :
    Config.standard.GeometryLegal ∧ { tiny with cacheSize := 4, lineSize := 4 }.GeometryLegal ∧
      { tiny with cacheSize := 2 ^ 31, lineSize := 4 }.GeometryLegal := by decide +kernel

theorem witness_RepeatedReadHits :
    sWarm.BusInv ∧ sWarm.cacheEnabled = true ∧ (8#32).toNat % 4 = 0 ∧ (8#32).toNat < sWarm.cfg.memorySize ∧
      Resident sWarm 8#32 ∧ (60#32).toNat % 4 = 0 ∧ (60#32).toNat < sWarm.cfg.memorySize ∧ ¬Resident sWarm 60#32 :=
  ⟨inv_sWarm.toBusInv, by decide +kernel⟩

theorem witness_WritesGoThroughAndAllocateNothing :
    sWarm.BusInv ∧ sWarm.cacheEnabled = true ∧ (8#32).toNat % 4 = 0 ∧ (8#32).toNat < sWarm.cfg.memorySize ∧
      Resident sWarm 8#32 ∧ (60#32).toNat % 4 = 0 ∧ (60#32).toNat < sWarm.cfg.memorySize ∧ ¬Resident sWarm 60#32 :=
  ⟨inv_sWarm.toBusInv, by decide +kernel⟩

theorem witness_CacheNeverChangesMemorySemantics :
    sWarm.BusInv ∧ (60#32).toNat % 4 = 0 ∧ (60#32).toNat < sWarm.cfg.memorySize ∧ sUncached.BusInv :=
  ⟨inv_sWarm.toBusInv, by decide, by decide +kernel, inv_sUncached.toBusInv⟩

theorem witness_StepKeepsTheInvariant : sSw.Inv ∧ (∃ t, step sSw = .next t) ∧ sIllegal.Inv ∧ ∃ t, step sIllegal = .next t :=
  ⟨inv_sSw, ⟨_, step_next _⟩, inv_sIllegal, ⟨_, step_next _⟩⟩

/-- Two commands that change memory under a warm cache, on a state that meets the invariant. -/
theorem witness_HostCommandsKeepTheInvariant :
    sWarm.Inv ∧ (applyHostOp (.memWrite 8#32 7#32) sWarm).mem ≠ sWarm.mem ∧
      (applyHostOp (.loadWords [(8#32, 7#32)]) sWarm).mem ≠ sWarm.mem :=
  ⟨inv_sWarm, by decide +kernel⟩

theorem witness_EveryReachableStateMeetsTheSourceInvariants :
    Reachable (applyHostOp .step (applyHostOp (.loadWords [(0#32, 0x20080005#32)]) (State.init tiny))) :=
  .command _ _ (.command _ _ (.built tiny (by decide)))

/-- Two machines with one program, one warm and one cold, that agree on all but the cache. -/
theorem witness_ProgramsCannotObserveTheCache :
    sWarm.Inv ∧ (withCacheOf sSw sWarm).Inv ∧ (∃ s', step sWarm = .next s') ∧
      (∃ t', step (withCacheOf sSw sWarm) = .next t') ∧
      SameButCache sWarm (withCacheOf sSw sWarm) ∧ sWarm.lines ≠ (withCacheOf sSw sWarm).lines :=
  ⟨inv_sWarm, by apply inv_of <;> decide +kernel, ⟨_, step_next _⟩, ⟨_, step_next _⟩, by decide +kernel⟩

theorem witness_CountersOnlyGrow : HostOp.step ≠ .clear ∧ sAddi.memReads < (applyHostOp .step sAddi).memReads := by
  decide +kernel

end Sys2Proof.Tests
end

section
/-! PROOFS. The statements of 10_state.md: the run state (R29), register 0 (R21) and the source's four invariants (R44).
Three facts carry them: what the execute phase may change, said once for all twelve instructions (`exec_cases`); which
operations leave the CPU's own state alone (`SameCpu`); and that every step and every host command keeps `State.Inv`. -/

namespace Sys2Proof.Machine

/-! ### Register 0 -/

/-- A register write leaves slot 0 as it was (10_state.md R21). -/
@[simp] theorem writeReg_regs_zero (i : RegIdx) (v : Word) (s : State) : (writeReg i v s).regs[0] = s.regs[0] := by
  unfold writeReg
  split
  · rfl
  · next hi =>
    have hne : i.toNat ≠ 0 := fun h => hi (BitVec.eq_of_toNat_eq h)
    exact Vector.getElem_set_ne i.isLt _ hne

/-- CPU reset leaves 0 in slot 0 (10_state.md R42). -/
theorem resetRegs_zero : resetRegs[0] = 0#32 := by decide

/-! ### The CPU's own state -/

/-- Two states agree in the configuration and in all that the CPU owns (10_state.md R20, R25, R28, R29, R30). -/
structure SameCpu (s t : State) : Prop where
  cfg : t.cfg = s.cfg
  regs : t.regs = s.regs
  pc : t.pc = s.pc
  next : t.next = s.next
  run : t.run = s.run
  fault : t.fault = s.fault

theorem SameCpu.refl (s : State) : SameCpu s s := ⟨rfl, rfl, rfl, rfl, rfl, rfl⟩

theorem sameCpu_of_memRead {a v : Word} {s t : State} (h : memRead a s = .ok (v, t)) : SameCpu s t := by
  obtain ⟨hcfg, hregs, hpc, hnext, hrun, hfault, -⟩ := memRead_frame h
  exact ⟨hcfg, hregs, hpc, hnext, hrun, hfault⟩

theorem sameCpu_of_memWrite {a v : Word} {s t : State} (h : memWrite a v s = .ok t) : SameCpu s t := by
  obtain ⟨hcfg, hregs, hpc, hnext, hrun, hfault, -⟩ := memWrite_frame h
  exact ⟨hcfg, hregs, hpc, hnext, hrun, hfault⟩

/-- A fetch leaves the CPU's own state alone (40_step_cycle.md R142). -/
theorem sameCpu_of_fetch {w : Word} {s t : State} (h : fetch s = .ok (w, t)) : SameCpu s t := by
  obtain ⟨-, -, hr⟩ := fetch_ok h
  exact sameCpu_of_memRead hr

/-- With the CPU's own state kept and the bus invariant restored, the whole invariant is kept. -/
theorem State.Inv.of_sameCpu {s t : State} (hs : s.Inv) (hb : t.BusInv) (h : SameCpu s t) : t.Inv where
  toBusInv := hb
  zeroReg := by rw [h.regs]; exact hs.zeroReg
  pcAligned := by rw [h.pc]; exact hs.pcAligned
  pcInBounds := by rw [h.pc, h.cfg]; exact hs.pcInBounds
  latchClear := h.next.trans hs.latchClear
  faultHalted := by rw [h.fault, h.run]; exact hs.faultHalted
  faultRecord := by rw [h.fault, h.pc]; exact hs.faultRecord

/-- A running CPU has no fault recorded (10_state.md R29, R30). -/
theorem State.Inv.noFault {s : State} (hs : s.Inv) (hrun : s.run = .running) : s.fault = none := by
  by_contra hf
  cases hrun.symm.trans (hs.faultHalted hf)

/-! ### Targets are aligned -/

/-- The sequential successor of an aligned PC is aligned (40_step_cycle.md R146). -/
theorem pc_add_four_aligned {pc : Word} (h : pc.toNat % 4 = 0) : (pc + 4#32).toNat % 4 = 0 := by bv_omega

/-- A branch from an aligned PC has an aligned target (43_control_transfer.md R180). -/
theorem branchTarget_aligned {pc : Word} (imm : Word) (h : pc.toNat % 4 = 0) : (branchTarget pc imm).toNat % 4 = 0 := by
  have h4 := pc_add_four_aligned h
  unfold branchTarget
  rw [BitVec.toNat_add, BitVec.toNat_shiftLeft, Nat.shiftLeft_eq]
  omega

/-- The target of a jump is aligned (43_control_transfer.md R183). -/
theorem jumpTarget_aligned (pc : Word) (target : BitVec 26) : (jumpTarget pc target).toNat % 4 = 0 := by
  have hlow : (target.setWidth 32 <<< 2).toNat % 2 ^ 2 = 0 := by
    rw [BitVec.toNat_shiftLeft, Nat.shiftLeft_eq]
    omega
  unfold jumpTarget
  rw [BitVec.toNat_or, BitVec.toNat_and]
  show _ % 2 ^ 2 = 0
  rw [Nat.or_mod_two_pow, Nat.and_mod_two_pow, hlow]
  simp

/-! ### What the execute phase may change -/

/-- What every execute phase that raises nothing keeps: the configuration, the PC, the run state, the fault record, slot 0
of the registers and the bus invariant; a target it records is aligned (40_step_cycle.md R144, R145). HALT, which changes
the run state, is a case of its own in `exec_cases`. -/
structure Executed (s u : State) : Prop where
  cfg : u.cfg = s.cfg
  pc : u.pc = s.pc
  run : u.run = s.run
  fault : u.fault = s.fault
  zeroReg : u.regs[0] = s.regs[0]
  busInv : s.BusInv → u.BusInv
  next : u.next = s.next ∨ ∃ target, u.next = some target ∧ (s.pc.toNat % 4 = 0 → target.toNat % 4 = 0)

/-- An operation on the bus or the cache that keeps their invariant. -/
theorem Executed.of_sameCpu {s u : State} (h : SameCpu s u) (hb : s.BusInv → u.BusInv) : Executed s u where
  cfg := h.cfg
  pc := h.pc
  run := h.run
  fault := h.fault
  zeroReg := by rw [h.regs]
  busInv := hb
  next := .inl h.next

theorem Executed.refl (s : State) : Executed s s := .of_sameCpu (.refl s) id

theorem Executed.writeReg {s u : State} (h : Executed s u) (i : RegIdx) (v : Word) :
    Executed s (Machine.writeReg i v u) where
  cfg := by rw [writeReg_cfg, h.cfg]
  pc := by rw [writeReg_pc, h.pc]
  run := by rw [writeReg_run, h.run]
  fault := by rw [writeReg_fault, h.fault]
  zeroReg := by rw [writeReg_regs_zero, h.zeroReg]
  busInv := fun hs => (h.busInv hs).congr (by simp) (by simp) (by simp) (by simp)
  next := by rw [writeReg_next]; exact h.next

theorem Executed.setNext {s u : State} (h : Executed s u) {target : Word}
    (ht : s.pc.toNat % 4 = 0 → target.toNat % 4 = 0) : Executed s (Machine.setNext target u) where
  cfg := h.cfg
  pc := h.pc
  run := h.run
  fault := h.fault
  zeroReg := h.zeroReg
  busInv := fun hs => (h.busInv hs).congr rfl rfl rfl rfl
  next := .inr ⟨target, rfl, ht⟩

/-- The PC that the PC update computes after the execute phase is aligned. -/
theorem Executed.newPc_aligned {s u : State} (h : Executed s u) (hnext : s.next = none) (hpc : s.pc.toNat % 4 = 0) :
    (newPc u).toNat % 4 = 0 := by
  rcases h.next with hn | ⟨target, hn, ht⟩
  · rw [newPc_none (hn.trans hnext), h.pc]
    exact pc_add_four_aligned hpc
  · rw [newPc_some hn]
    exact ht hpc

/-- The kinds of fault an execute phase raises (60_exceptions.md R202, R203): the bus's. -/
abbrev Raised.FromBus (e : Raised) : Prop := e.kind = .addressError ∨ e.kind = .ioAddressError

/-- What the meaning of an instruction can do: execute and update the PC; fault on the bus, with nothing else changed; or,
for HALT alone, halt, with or without the PC update (40_step_cycle.md R144 to R146, 44_system.md R190). -/
theorem exec_cases {i : Instr} {s t : State} (h : exec i s = .next t) :
    (i ≠ .halt ∧ ∃ u, Executed s u ∧ t = pcUpdate u) ∨ (∃ e : Raised, e.FromBus ∧ t = takeFault e s) ∨
      (i = .halt ∧ (t = enterHalted s ∨ t = pcUpdate (enterHalted s))) := by
  have updates : ∀ {u}, i ≠ .halt → Executed s u → exec i s = .next (pcUpdate u) →
      i ≠ .halt ∧ ∃ u, Executed s u ∧ t = pcUpdate u := fun hi hu hx => ⟨hi, _, hu, by cases h.symm.trans hx; rfl⟩
  have refl := Executed.refl s
  cases i with
  | add rs rt rd sh => exact .inl (updates nofun (refl.writeReg ..) rfl)
  | sub rs rt rd sh => exact .inl (updates nofun (refl.writeReg ..) rfl)
  | slt rs rt rd sh => exact .inl (updates nofun (refl.writeReg ..) rfl)
  | addi rs rt imm => exact .inl (updates nofun (refl.writeReg ..) rfl)
  | j target => exact .inl (updates nofun (refl.setNext fun _ => jumpTarget_aligned _ target) rfl)
  | jal target => exact .inl (updates nofun ((refl.writeReg ..).setNext fun _ => jumpTarget_aligned _ target) rfl)
  | beq rs rt imm =>
    refine .inl (updates nofun ?_ rfl)
    split
    · exact refl.setNext (branchTarget_aligned imm)
    · exact refl
  | bne rs rt imm =>
    refine .inl (updates nofun ?_ rfl)
    split
    · exact refl
    · exact refl.setNext (branchTarget_aligned imm)
  | cachectl => exact .inl (updates nofun refl rfl)
  | lw rs rt imm =>
    simp only [exec, execLw] at h
    split at h
    · next v s' hr =>
      cases h
      have hread : Executed s s' := .of_sameCpu (sameCpu_of_memRead hr) fun hs => memRead_keeps_busInv hs hr
      exact .inl ⟨nofun, _, hread.writeReg .., rfl⟩
    · next e he =>
      cases h
      obtain ⟨k, hk, rfl⟩ := memRead_error he
      exact .inr (.inl ⟨_, busRoute_kind _ _ _ hk, rfl⟩)
  | sw rs rt imm =>
    simp only [exec, execSw] at h
    split at h
    · next s' hw =>
      cases h
      exact .inl ⟨nofun, s', .of_sameCpu (sameCpu_of_memWrite hw) fun hs => memWrite_keeps_busInv hs hw, rfl⟩
    · next e he =>
      cases h
      obtain ⟨k, hk, rfl⟩ := memWrite_error he
      exact .inr (.inl ⟨_, busRoute_kind _ _ _ hk, rfl⟩)
  | halt =>
    simp only [exec, execHalt, Host.Outcome.next.injEq] at h
    refine .inr (.inr ⟨rfl, ?_⟩)
    split at h
    · exact .inr h.symm
    · exact .inl h.symm

/-! ### The fetch under the invariant -/

/-- Under the invariant a fetch answers the memory's word at the PC, and keeps the invariant and the CPU's own state
(40_step_cycle.md R142; 20_memory.md R81). -/
theorem fetch_of_inv {s : State} (hs : s.Inv) :
    ∃ f, fetch s = .ok (backRead s.mem s.pc.toNat, f) ∧ SameCpu s f ∧ f.Inv := by
  have hr := memRead_of_word hs.toBusInv s.pc hs.pcAligned hs.pcInBounds
  have hcpu := sameCpu_of_memRead hr
  refine ⟨_, ?_, hcpu, hs.of_sameCpu (memRead_keeps_busInv hs.toBusInv hr) hcpu⟩
  obtain ⟨haligned, hinside, -⟩ := busRoute_memory _ _ (busRoute_of_word s.cfg hs.legal s.pc hs.pcAligned hs.pcInBounds)
  unfold fetch
  rw [if_neg (by omega), hr]

/-- Between two steps the latch is empty already (10_state.md R28). -/
theorem beginExecute_of_inv {s : State} (hs : s.Inv) : beginExecute s = s := by
  unfold beginExecute
  rw [← hs.latchClear]

/-- A step of a running CPU under the invariant fetches the memory's word at the PC into a state that meets the invariant
and has the CPU's own state, and takes the decode fault there or runs the decoded instruction (40_step_cycle.md R149). -/
theorem step_of_inv {s t : State} (hs : s.Inv) (hrun : s.run = .running) (h : step s = .next t) :
    ∃ f, SameCpu s f ∧ f.Inv ∧
      (((∃ d, decode (backRead s.mem s.pc.toNat) = .error d) ∧ t = takeDecodeFault f) ∨
        ∃ i, decode (backRead s.mem s.pc.toNat) = .ok i ∧ exec i f = .next t) := by
  obtain ⟨f, hf, hcpu, hinv⟩ := fetch_of_inv hs
  refine ⟨f, hcpu, hinv, ?_⟩
  rcases step_cases s with ⟨hh, -⟩ | ⟨-, e, hf', -⟩ | ⟨-, w, f', d, hf', hd, hstep⟩ | ⟨-, w, f', i, hf', hd, hstep⟩
  · cases hrun.symm.trans hh
  · cases hf.symm.trans hf'
  · cases hf.symm.trans hf'
    exact .inl ⟨⟨d, hd⟩, by cases h.symm.trans hstep; rfl⟩
  · cases hf.symm.trans hf'
    rw [beginExecute_of_inv hinv] at hstep
    exact .inr ⟨i, hd, hstep.symm.trans h⟩

/-! ### Register 0 through a step -/

/-- The meaning of an instruction leaves slot 0 of the registers as it was. -/
theorem exec_keeps_zeroReg {i : Instr} {s t : State} (h : exec i s = .next t) : t.regs[0] = s.regs[0] := by
  rcases exec_cases h with ⟨-, u, hu, rfl⟩ | ⟨e, -, rfl⟩ | ⟨-, rfl | rfl⟩
  · rw [pcUpdate_regs]; exact hu.zeroReg
  · rfl
  · rfl
  · rw [pcUpdate_regs]; rfl

/-- A step leaves slot 0 of the registers as it was, from every state (10_state.md R21). -/
theorem step_keeps_zeroReg {s t : State} (h : step s = .next t) : t.regs[0] = s.regs[0] := by
  rcases step_cases s with ⟨-, hstep⟩ | ⟨-, e, -, hstep⟩ | ⟨-, w, f, d, hf, -, hstep⟩ | ⟨-, w, f, i, hf, -, hstep⟩
  · cases h.symm.trans hstep; rfl
  · cases h.symm.trans hstep; rfl
  · cases h.symm.trans hstep
    show f.regs[0] = s.regs[0]
    rw [(sameCpu_of_fetch hf).regs]
  · rw [exec_keeps_zeroReg (hstep.symm.trans h), beginExecute_regs, (sameCpu_of_fetch hf).regs]

/-- Settles O41: `writeReg` discards a write to register 0, so no meaning reaches slot 0. -/
theorem registerZeroStaysZero : Obligations.RegisterZeroStaysZero :=
  ⟨readReg_zero, fun _ _ => rfl, fun _ _ hzero h => (step_keeps_zeroReg h).trans hzero⟩

/-! ### RUNNING and HALTED -/

/-- Under the invariant the meaning of an instruction leaves a running CPU halted exactly when it faulted or the
instruction is HALT (10_state.md R29). -/
theorem exec_halted_iff {i : Instr} {s t : State} (hs : s.Inv) (hrun : s.run = .running) (h : exec i s = .next t) :
    t.run = .halted ↔ t.fault ≠ none ∨ i = .halt := by
  rcases exec_cases h with ⟨hi, u, hu, rfl⟩ | ⟨e, -, rfl⟩ | ⟨rfl, rfl | rfl⟩
  · rcases pcUpdate_cases u with ⟨-, hp⟩ | ⟨-, hp⟩
    · simp [hp, hu.run, hrun, hu.fault, hs.noFault hrun, hi]
    · simp [hp]
  · simp
  · simp
  · rcases pcUpdate_cases (enterHalted s) with ⟨-, hp⟩ | ⟨-, hp⟩ <;> simp [hp]

/-- Under the invariant a step leaves a running CPU halted exactly when it faulted or the word at the PC is HALT
(10_state.md R29). -/
theorem step_halted_iff {s t : State} (hs : s.Inv) (hrun : s.run = .running) (h : step s = .next t) :
    t.run = .halted ↔ t.fault ≠ none ∨ decode (backRead s.mem s.pc.toNat) = .ok .halt := by
  obtain ⟨f, hcpu, hinv, ⟨-, rfl⟩ | ⟨i, hd, hx⟩⟩ := step_of_inv hs hrun h
  · simp [takeDecodeFault]
  · rw [exec_halted_iff hinv (hcpu.run.trans hrun) hx, hd, Except.ok.injEq]

/-- A step of a HALTED CPU changes nothing (40_step_cycle.md R141). -/
theorem afterStep_of_halted {s : State} (h : s.run = .halted) : afterStep s = s :=
  afterStep_eq (by unfold step; rw [h]; rfl)

/-! ### The commands of the host -/

/-- Every command of the host but a step and CPU reset leaves the CPU's own state alone (00_scope.md Table O). -/
theorem sameCpu_applyHostOp {op : HostOp} (hstep : op ≠ .step) (hreset : op ≠ .cpuReset) (s : State) :
    SameCpu s (applyHostOp op s) := by
  cases op with
  | step => exact absurd rfl hstep
  | cpuReset => exact absurd rfl hreset
  | memRead a =>
    simp only [applyHostOp]
    cases h : memRead a s with
    | error e => exact .refl s
    | ok p => exact sameCpu_of_memRead h
  | memWrite a v =>
    simp only [applyHostOp]
    cases h : memWrite a v s with
    | error e => exact .refl s
    | ok t => exact sameCpu_of_memWrite h
  | loadProgram bytes base =>
    simp only [applyHostOp, loadProgram]
    split <;> exact ⟨rfl, rfl, rfl, rfl, rfl, rfl⟩
  | loadWords ws =>
    simp only [applyHostOp, loadWords]
    split <;> exact ⟨rfl, rfl, rfl, rfl, rfl, rfl⟩
  | clear => exact ⟨rfl, rfl, rfl, rfl, rfl, rfl⟩
  | cacheInvalidate a => exact ⟨rfl, rfl, rfl, rfl, rfl, rfl⟩
  | cacheInvalidateAll => exact ⟨rfl, rfl, rfl, rfl, rfl, rfl⟩
  | cacheToggle e => cases e <;> exact ⟨rfl, rfl, rfl, rfl, rfl, rfl⟩
  | setInput v => exact ⟨rfl, rfl, rfl, rfl, rfl, rfl⟩

/-- Of all commands of the host only CPU reset makes a HALTED CPU run (10_state.md R29). -/
theorem applyHostOp_running_iff (op : HostOp) {s : State} (h : s.run = .halted) :
    (applyHostOp op s).run = .running ↔ op = .cpuReset := by
  by_cases hreset : op = .cpuReset
  · simp [hreset, applyHostOp]
  have hkept : (applyHostOp op s).run = .halted := by
    by_cases hstep : op = .step
    · simp [hstep, applyHostOp, afterStep_of_halted h, h]
    · rw [(sameCpu_applyHostOp hstep hreset s).run, h]
  simp [hkept, hreset]

/-- Settles O15: `step_halted_iff` for a running CPU, `afterStep_of_halted` for a halted one, `applyHostOp_running_iff`
for the commands. -/
theorem haltedIsTerminalAndReachedByHaltOrFault : Obligations.HaltedIsTerminalAndReachedByHaltOrFault :=
  ⟨fun _ _ => step_halted_iff, fun _ _ hh h => by rw [← afterStep_eq h, afterStep_of_halted hh, hh],
    fun op _ => applyHostOp_running_iff op⟩

/-! ### Every step keeps the invariant -/

/-- Taking a fault of any kind but that of machine build leaves the invariant, whatever the latch and the run state were
(60_exceptions.md R205, R206). -/
theorem takeFault_inv {e : Raised} {s : State} (he : e.kind ≠ .configurationError) (hb : s.BusInv)
    (hzero : s.regs[0] = 0#32) (haligned : s.pc.toNat % 4 = 0) (hinside : s.pc.toNat < s.cfg.memorySize) :
    (takeFault e s).Inv where
  toBusInv := hb.congr rfl rfl rfl rfl
  zeroReg := hzero
  pcAligned := haligned
  pcInBounds := hinside
  latchClear := rfl
  faultHalted := fun _ => rfl
  faultRecord := by
    rintro f ⟨⟩
    exact ⟨rfl, he⟩

/-- The PC update of a state with no fault and an aligned new PC leaves the invariant: it moves the PC inside the memory,
or faults and keeps it (40_step_cycle.md R146). -/
theorem pcUpdate_inv {s : State} (hnew : (newPc s).toNat % 4 = 0) (hfault : s.fault = none) (hb : s.BusInv)
    (hzero : s.regs[0] = 0#32) (haligned : s.pc.toNat % 4 = 0) (hinside : s.pc.toNat < s.cfg.memorySize) :
    (pcUpdate s).Inv := by
  rcases pcUpdate_cases s with ⟨hlt, hp⟩ | ⟨-, hp⟩ <;> rw [hp]
  · exact {
      toBusInv := hb.congr rfl rfl rfl rfl
      zeroReg := hzero
      pcAligned := hnew
      pcInBounds := hlt
      latchClear := rfl
      faultHalted := fun h => absurd hfault h
      faultRecord := by rw [hfault]; nofun }
  · exact takeFault_inv nofun hb hzero haligned hinside

/-- Halting keeps the invariant (44_system.md R190). -/
theorem enterHalted_inv {s : State} (hs : s.Inv) : (enterHalted s).Inv where
  toBusInv := hs.toBusInv.congr rfl rfl rfl rfl
  zeroReg := hs.zeroReg
  pcAligned := hs.pcAligned
  pcInBounds := hs.pcInBounds
  latchClear := hs.latchClear
  faultHalted := fun _ => rfl
  faultRecord := hs.faultRecord

/-- The meaning of every instruction keeps the invariant of a running CPU. -/
theorem exec_keeps_inv {i : Instr} {s t : State} (hs : s.Inv) (hrun : s.run = .running) (h : exec i s = .next t) :
    t.Inv := by
  have hfault := hs.noFault hrun
  rcases exec_cases h with ⟨-, u, hu, rfl⟩ | ⟨e, he, rfl⟩ | ⟨-, rfl | rfl⟩
  · exact pcUpdate_inv (hu.newPc_aligned hs.latchClear hs.pcAligned) (hu.fault.trans hfault) (hu.busInv hs.toBusInv)
      (hu.zeroReg.trans hs.zeroReg) (by rw [hu.pc]; exact hs.pcAligned) (by rw [hu.pc, hu.cfg]; exact hs.pcInBounds)
  · have hkind : e.kind ≠ .configurationError := by rcases he with he | he <;> rw [he] <;> nofun
    exact takeFault_inv hkind hs.toBusInv hs.zeroReg hs.pcAligned hs.pcInBounds
  · exact enterHalted_inv hs
  · have hhalted := enterHalted_inv hs
    have hnew : (newPc (enterHalted s)).toNat % 4 = 0 := by
      rw [newPc_none hhalted.latchClear]
      exact pc_add_four_aligned hhalted.pcAligned
    exact pcUpdate_inv hnew hfault hhalted.toBusInv hs.zeroReg hs.pcAligned hs.pcInBounds

/-- Every step keeps the invariant (10_state.md R26, R28, R30, R44; 20_memory.md R80). -/
theorem step_keeps_inv {s t : State} (hs : s.Inv) (h : step s = .next t) : t.Inv := by
  cases hrun : s.run with
  | halted =>
    rw [← afterStep_eq h, afterStep_of_halted hrun]
    exact hs
  | running =>
    obtain ⟨f, hcpu, hf, ⟨-, rfl⟩ | ⟨i, -, hx⟩⟩ := step_of_inv hs hrun h
    · exact takeFault_inv nofun hf.toBusInv hf.zeroReg hf.pcAligned hf.pcInBounds
    · exact exec_keeps_inv hf (hcpu.run.trans hrun) hx

/-! ### Every host command keeps the invariant -/

/-- Bytes written inside a bound keep the canonical form and every cell inside it (20_memory.md R90). -/
theorem writeBytes_keeps {n : Nat} (bytes : List Byte) {m : Memory} {base : Nat} (hwf : Memory.wf m = true)
    (hin : ∀ cell ∈ m, cell.1 < n) (hb : base + bytes.length ≤ n) :
    Memory.wf (writeBytes m base bytes) = true ∧ ∀ cell ∈ writeBytes m base bytes, cell.1 < n := by
  induction bytes generalizing m base with
  | nil => exact ⟨hwf, hin⟩
  | cons b bs ih =>
    rw [List.length_cons] at hb
    exact ih (Memory.wf_write m base b hwf) (Memory.inside_write m base n b hin (by omega)) (by omega)

/-- Words that `LoadWords` accepts keep the canonical form and every cell inside the memory (20_memory.md R91). -/
theorem writeWords_keeps {c : Config} (ws : List (Word × Word)) {m : Memory} (hwf : Memory.wf m = true)
    (hin : ∀ cell ∈ m, cell.1 < c.memorySize) (hws : firstRejected c ws = none) :
    Memory.wf (writeWords m ws) = true ∧ ∀ cell ∈ writeWords m ws, cell.1 < c.memorySize := by
  induction ws generalizing m with
  | nil => exact ⟨hwf, hin⟩
  | cons p ws ih =>
    obtain ⟨a, v⟩ := p
    rw [firstRejected] at hws
    split at hws
    · next ha =>
      exact ih (wf_backWrite m a.toNat v hwf) (inside_backWrite m a.toNat c.memorySize v hin ha.2) hws
    · cases hws

/-- A new memory image with the whole cache invalidated keeps the bus invariant (20_memory.md R94). -/
theorem State.BusInv.reload {s : State} (hs : s.BusInv) {m : Memory}
    (hm : Memory.wf m = true ∧ ∀ cell ∈ m, cell.1 < s.cfg.memorySize) :
    (Machine.cacheInvalidateAll { s with mem := m }).BusInv :=
  State.BusInv.invalidateAll hs.legal hm.1 hm.2 hs.lineCount hs.lineData

/-- The line of an address holds `LINE_SIZE` bytes (10_state.md R37). -/
theorem lineOf_data_length {s : State} (hs : s.BusInv) (a : Word) : (lineOf s a).data.length = s.cfg.lineSize := by
  have hlt : cacheIndex s.cfg a < s.lines.length := hs.lineCount ▸ cacheIndex_lt s.cfg hs.legal.1 a
  unfold lineOf lineAt
  rw [List.getD_eq_getElem _ _ hlt]
  exact hs.lineData _ (List.getElem_mem hlt)

/-- Invalidating one line keeps the bus invariant (20_memory.md R76). -/
theorem State.BusInv.cacheInvalidate {s : State} (hs : s.BusInv) (a : Word) : (Machine.cacheInvalidate a s).BusInv :=
  hs.setLineOf a _ (.inr rfl) (lineOf_data_length hs a) nofun

/-- Switching the cache on or off keeps the bus invariant (20_memory.md R78). -/
theorem State.BusInv.cacheToggle {s : State} (hs : s.BusInv) (e : Bool) : (Machine.cacheToggle e s).BusInv := by
  cases e with
  | false => exact State.BusInv.invalidateAll hs.legal hs.memWf hs.memInside hs.lineCount hs.lineData
  | true => exact { hs with disabledEmpty := nofun }

/-- Every command of the host but a step keeps the bus invariant (20_memory.md R80, R94). -/
theorem applyHostOp_keeps_busInv {op : HostOp} (hstep : op ≠ .step) {s : State} (hs : s.BusInv) :
    (applyHostOp op s).BusInv := by
  cases op with
  | step => exact absurd rfl hstep
  | memRead a =>
    simp only [applyHostOp]
    cases h : memRead a s with
    | error e => exact hs
    | ok p => exact memRead_keeps_busInv hs h
  | memWrite a v =>
    simp only [applyHostOp]
    cases h : memWrite a v s with
    | error e => exact hs
    | ok t => exact memWrite_keeps_busInv hs h
  | loadProgram bytes base =>
    simp only [applyHostOp, loadProgram]
    split
    · exact hs
    · exact hs.reload (writeBytes_keeps bytes hs.memWf hs.memInside (by omega))
  | loadWords ws =>
    simp only [applyHostOp, loadWords]
    split
    · exact hs
    · next hws => exact hs.reload (writeWords_keeps ws hs.memWf hs.memInside hws)
  | clear => exact State.BusInv.invalidateAll hs.legal rfl nofun hs.lineCount hs.lineData
  | cacheInvalidate a => exact hs.cacheInvalidate a
  | cacheInvalidateAll => exact State.BusInv.invalidateAll hs.legal hs.memWf hs.memInside hs.lineCount hs.lineData
  | cacheToggle e => exact hs.cacheToggle e
  | cpuReset => exact hs.congr rfl rfl rfl rfl
  | setInput v => exact hs.congr rfl rfl rfl rfl

/-- CPU reset gives the invariant on any sound bus (10_state.md R42). -/
theorem cpuReset_inv {s : State} (hb : s.BusInv) : (cpuReset s).Inv where
  toBusInv := hb.congr rfl rfl rfl rfl
  zeroReg := resetRegs_zero
  pcAligned := rfl
  pcInBounds := hb.legal.2.1
  latchClear := rfl
  faultHalted := fun h => absurd rfl h
  faultRecord := nofun

/-- Every command of the host, a step among them, keeps the invariant (10_state.md R44; 20_memory.md R80, R94). -/
theorem applyHostOp_keeps_inv (op : HostOp) {s : State} (hs : s.Inv) : (applyHostOp op s).Inv := by
  by_cases hstep : op = .step
  · subst hstep
    exact step_keeps_inv hs (step_next s)
  by_cases hreset : op = .cpuReset
  · subst hreset
    exact cpuReset_inv hs.toBusInv
  exact hs.of_sameCpu (applyHostOp_keeps_busInv hstep hs.toBusInv) (sameCpu_applyHostOp hstep hreset s)

/-! ### Reachable states -/

/-- Machine build leaves the CPU as CPU reset does and no line valid (70_reset_and_hazards.md R231). -/
theorem init_eq_reset (c : Config) : State.init c = cpuReset (cacheInvalidateAll (State.init c)) := by
  have hlines : (State.init c).lines.map CacheLine.invalidate = (State.init c).lines := List.map_replicate
  unfold cacheInvalidateAll
  rw [hlines]
  rfl

/-- Machine build under a legal configuration gives the invariant (10_state.md R41, R42). -/
theorem init_inv {c : Config} (h : c.Legal) : (State.init c).Inv := by
  rw [init_eq_reset]
  refine cpuReset_inv (State.BusInv.invalidateAll h rfl nofun List.length_replicate fun l hl => ?_)
  rw [List.eq_of_mem_replicate hl]
  exact List.length_replicate

/-- Every reachable state meets the invariant: a build gives it and every command keeps it (10_state.md R44). -/
theorem reachable_inv {s : State} (h : Reachable s) : s.Inv := by
  induction h with
  | built c hc => exact init_inv hc
  | command op s _ ih => exact applyHostOp_keeps_inv op ih

/-- A legal cache is `NUM_LINES` whole lines (00_scope.md R7). -/
theorem cacheSize_eq_mul (c : Config) (h : c.GeometryLegal) : c.cacheSize = c.numLines * c.lineSize := by
  obtain ⟨hline, -, hcache, hle, -⟩ := h
  have hdvd : c.lineSize ∣ c.cacheSize := by
    rw [hline, hcache] at hle ⊢
    exact Nat.pow_dvd_pow 2 ((Nat.pow_le_pow_iff_right (by decide)).mp hle)
  exact (Nat.div_mul_cancel hdvd).symm

/-- The three fields of an address fill its 32 bits (00_scope.md R7, 10_state.md R44). -/
theorem fieldBits_sum (c : Config) (h : c.GeometryLegal) : c.offsetBits + c.indexBits + c.tagBits = 32 := by
  obtain ⟨-, -, -, -, hsize⟩ := id h
  have hpow : 2 ^ (c.indexBits + c.offsetBits) ≤ 2 ^ 31 := by
    rwa [Nat.pow_add, ← numLines_eq_pow c h, ← lineSize_eq_pow c h, ← cacheSize_eq_mul c h]
  have hbits := (Nat.pow_le_pow_iff_right (by decide)).mp hpow
  unfold Config.tagBits
  omega

/-- Settles O58, by `reachable_inv` and the legal geometry it keeps. -/
theorem everyReachableStateMeetsTheSourceInvariants : Obligations.EveryReachableStateMeetsTheSourceInvariants := by
  intro s hs
  have hinv := reachable_inv hs
  have hgeo := hinv.legal.1
  exact ⟨hinv.zeroReg, hinv.pcAligned, hinv.pcInBounds, hinv.coherent, fieldBits_sum _ hgeo, cacheSize_eq_mul _ hgeo,
    lineSize_eq_pow _ hgeo, numLines_eq_pow _ hgeo⟩

end Sys2Proof.Machine
end

section
/-! PROOFS of the statements about invalidating and toggling the cache (20_memory.md R77, R78). -/

namespace Sys2Proof.Machine

/-! ### Invalidation, line by line -/

/-- 20_memory.md R77, at every index: an index past the last line reads the initial line, which is invalid already. -/
theorem lineAt_cacheInvalidateAll (s : State) (i : Nat) :
    lineAt (cacheInvalidateAll s) i = (lineAt s i).invalidate :=
  List.getD_map s.lines (CacheLine.initial s.cfg.lineSize) CacheLine.invalidate

/-- No line of the cache is valid after `CacheInvalidateAll` (20_memory.md R77). -/
theorem valid_of_mem_cacheInvalidateAll {s : State} {l : CacheLine} (hl : l ∈ (cacheInvalidateAll s).lines) :
    l.valid = false := by
  obtain ⟨l', -, rfl⟩ := List.mem_map.mp hl
  rfl

/-- Settles O48: the line read at an index is the line there before, invalidated. -/
theorem invalidateAllClearsEveryValidBit : Obligations.InvalidateAllClearsEveryValidBit := by
  refine fun s => ⟨fun i => ?_, rfl⟩
  rw [lineAt_cacheInvalidateAll]
  exact ⟨rfl, rfl, rfl⟩

/-! ### Residency under invalid lines -/

/-- While no line is valid no address is resident (20_memory.md R72). -/
theorem not_resident_of_lines_invalid {s : State} (h : ∀ l ∈ s.lines, l.valid = false) (a : Word) : ¬Resident s a := by
  rintro ⟨hvalid, -⟩
  have hinvalid : (lineOf s a).valid = false := by
    unfold lineOf lineAt
    rcases Nat.lt_or_ge (cacheIndex s.cfg a) s.lines.length with hlt | hge
    · rw [List.getD_eq_getElem _ _ hlt]
      exact h _ (List.getElem_mem hlt)
    · rw [List.getD_eq_default _ _ hge]
      rfl
  exact absurd (hinvalid.symm.trans hvalid) (by decide)

/-- Enabling the cache changes the flag only (20_memory.md R78). -/
theorem cacheToggle_true (s : State) : cacheToggle true s = { s with cacheEnabled := true } := rfl

/-- Disabling the cache clears the flag and invalidates every line (20_memory.md R78). -/
theorem cacheToggle_false (s : State) :
    cacheToggle false s = cacheInvalidateAll { s with cacheEnabled := false } := rfl

/-- Settles O47: disabling leaves no valid line, and enabling keeps the lines, so none of them holds an address. -/
theorem togglingTheCacheInvalidatesIt : Obligations.TogglingTheCacheInvalidatesIt := by
  intro s
  have hinvalid : ∀ l ∈ (cacheToggle false s).lines, l.valid = false := by
    rw [cacheToggle_false]
    exact fun _ => valid_of_mem_cacheInvalidateAll
  refine ⟨⟨rfl, hinvalid, rfl⟩, cacheToggle_true s, fun t a ht => ?_⟩
  have hlines : (cacheToggle true t).lines = (cacheToggle false s).lines := by rw [cacheToggle_true, ht]
  exact not_resident_of_lines_invalid (hlines ▸ hinvalid) a

end Sys2Proof.Machine
end

section
/-! PROOFS of the statements about the opcode table, the funct map and the codec's algorithm (30_encoding.md R117 to R119).
The decoder is read once, as the relation `Decodes`. A row's match looks at the opcode and, under opcode 0, the funct
(`SameRow`), and so does the mnemonic the decoder answers. -/

namespace Sys2Proof

/-! ### What the decoder answers -/

/-- The verdict on a word by its opcode and its funct: Table OP and the illegal words (30_encoding.md R117, R118, R122). -/
inductive Decodes (w : Word) : Except DecodeError Instr → Prop where
  | add (hop : opcodeOf w = 0x00#6) (hf : functOf w = 0x20#6) : Decodes w (.ok (.add (rsOf w) (rtOf w) (rdOf w) (shamtOf w)))
  | sub (hop : opcodeOf w = 0x00#6) (hf : functOf w = 0x22#6) : Decodes w (.ok (.sub (rsOf w) (rtOf w) (rdOf w) (shamtOf w)))
  | slt (hop : opcodeOf w = 0x00#6) (hf : functOf w = 0x2A#6) : Decodes w (.ok (.slt (rsOf w) (rtOf w) (rdOf w) (shamtOf w)))
  | badFunct (hop : opcodeOf w = 0x00#6) (hf : functOf w ∉ [0x20#6, 0x22#6, 0x2A#6]) :
      Decodes w (.error (.badFunct (functOf w)))
  | j (hop : opcodeOf w = 0x02#6) : Decodes w (.ok (.j (targetOf w)))
  | jal (hop : opcodeOf w = 0x03#6) : Decodes w (.ok (.jal (targetOf w)))
  | beq (hop : opcodeOf w = 0x04#6) : Decodes w (.ok (.beq (rsOf w) (rtOf w) (immOf w)))
  | bne (hop : opcodeOf w = 0x05#6) : Decodes w (.ok (.bne (rsOf w) (rtOf w) (immOf w)))
  | addi (hop : opcodeOf w = 0x08#6) : Decodes w (.ok (.addi (rsOf w) (rtOf w) (immOf w)))
  | lw (hop : opcodeOf w = 0x23#6) : Decodes w (.ok (.lw (rsOf w) (rtOf w) (immOf w)))
  | sw (hop : opcodeOf w = 0x2B#6) : Decodes w (.ok (.sw (rsOf w) (rtOf w) (immOf w)))
  | cachectl (hop : opcodeOf w = 0x3E#6) : Decodes w (.ok .cachectl)
  | halt (hop : opcodeOf w = 0x3F#6) : Decodes w (.ok .halt)
  | badOpcode (hop : opcodeOf w ∉ [0x00#6, 0x02#6, 0x03#6, 0x04#6, 0x05#6, 0x08#6, 0x23#6, 0x2B#6, 0x3E#6, 0x3F#6]) :
      Decodes w (.error (.badOpcode (opcodeOf w)))

/-- Under opcode 0 the funct decides (30_encoding.md R118). -/
theorem decodes_decodeRType {w : Word} (hop : opcodeOf w = 0x00#6) : Decodes w (decodeRType w) := by
  unfold decodeRType
  split
  · next hf => exact .add hop hf
  split
  · next hf => exact .sub hop hf
  split
  · next hf => exact .slt hop hf
  · exact .badFunct hop (by simp [*])

/-- The decoder's answer is a case of the table, for every word (30_encoding.md R110, R119). -/
theorem decodes_decode (w : Word) : Decodes w (decode w) := by
  unfold decode
  split
  · next hop => exact decodes_decodeRType hop
  split
  · next hop => exact .j hop
  split
  · next hop => exact .jal hop
  split
  · next hop => exact .beq hop
  split
  · next hop => exact .bne hop
  split
  · next hop => exact .addi hop
  split
  · next hop => exact .lw hop
  split
  · next hop => exact .sw hop
  split
  · next hop => exact .cachectl hop
  split
  · next hop => exact .halt hop
  · exact .badOpcode (by simp [*])

/-- The decoder's answer is the only verdict the table has for a word. -/
theorem decode_eq_iff {w : Word} {d : Except DecodeError Instr} : decode w = d ↔ Decodes w d := by
  refine ⟨fun h => h ▸ decodes_decode w, fun h => ?_⟩
  cases h with
  | badFunct hop hf => simp_all [decode, decodeRType]
  | badOpcode hop => simp_all [decode]
  | _ => simp [decode, decodeRType, *]

/-- Settles O5: each of the four cases of opcode 0 is a case of `Decodes`. -/
theorem functMapUnderOpcodeZero : Obligations.FunctMapUnderOpcodeZero := fun _ hop =>
  ⟨fun hf => decode_eq_iff.mpr (.add hop hf), fun hf => decode_eq_iff.mpr (.sub hop hf),
    fun hf => decode_eq_iff.mpr (.slt hop hf), fun hf => ⟨_, decode_eq_iff.mpr (.badFunct hop hf)⟩⟩

/-! ### The codec's algorithm -/

/-- The algorithm of 30_encoding.md R119 in each case of the decoder. -/
theorem descriptor_of_decodes {w : Word} {d : Except DecodeError Instr} (h : Decodes w d) :
    d.map Instr.descriptor = decodeDescriptor w := by
  cases h with
  | badFunct hop hf => rw [decodeDescriptor, if_pos hop, if_neg hf]; rfl
  | badOpcode hop => simp_all [decodeDescriptor, Except.map]
  | _ => simp [decodeDescriptor, Except.map, Instr.descriptor, *]

/-- Settles O6: the decoder's answer is a case of `Decodes`, and the algorithm is known in each. -/
theorem decodeIsTheCodecAlgorithm : Obligations.DecodeIsTheCodecAlgorithm := fun w =>
  descriptor_of_decodes (decodes_decode w)

/-! ### What the choice of a row depends on -/

/-- Two words agree in what Table OP looks at: the opcode and, under opcode 0, the funct (30_encoding.md R117, R118). -/
def SameRow (v w : Word) : Prop := opcodeOf v = opcodeOf w ∧ (opcodeOf w = 0x00#6 → functOf v = functOf w)

/-- The mnemonic the decoder answers, or its verdict of illegality, depends on the opcode and the funct alone. -/
theorem SameRow.decode_mnemonic {v w : Word} (h : SameRow v w) :
    (decode v).map Instr.mnemonic = (decode w).map Instr.mnemonic := by
  obtain ⟨hop, hf⟩ := h
  by_cases h0 : opcodeOf w = 0x00#6
  · simp only [decode, decodeRType, hop, hf h0, h0, if_true]
    split_ifs <;> rfl
  · simp only [decode, hop, if_neg h0]
    split_ifs <;> rfl

/-- The encoder keeps the opcode and the funct of the word an instruction was decoded from (30_encoding.md R125). -/
theorem sameRow_encode {w : Word} {i : Instr} (h : decode w = .ok i) : SameRow (encode i) w := by
  rw [decode_eq_iff] at h
  cases h with
  | cachectl hop => simp [SameRow, hop, show opcodeOf (encode .cachectl) = 0x3E#6 by decide]
  | halt hop => simp [SameRow, hop, show opcodeOf (encode .halt) = 0x3F#6 by decide]
  | _ => simp [SameRow, encode, *]

/-! ### The rows of Table OP -/

/-- Concatenation of fields of fixed widths is injective. -/
theorem append_eq_append_iff {m n : Nat} {a c : BitVec m} {b d : BitVec n} : a ++ b = c ++ d ↔ a = c ∧ b = d := by
  refine ⟨fun h => ⟨?_, ?_⟩, fun ⟨hac, hbd⟩ => by rw [hac, hbd]⟩
  · simpa only [BitVec.extractLsb'_append_eq_left] using congrArg (BitVec.extractLsb' n m) h
  · simpa only [BitVec.extractLsb'_append_eq_right] using congrArg (BitVec.extractLsb' 0 n) h

/-- A row's match word lies under its mask, and the funct is under the mask in the rows of opcode 0 only. -/
theorem opcodeTable_masks : ∀ r ∈ opcodeTable, r.pattern &&& r.mask = r.pattern ∧
    (opcodeOf r.pattern = 0x00#6 ∧ r.mask = 0xFC00003F#32 ∨ opcodeOf r.pattern ≠ 0x00#6 ∧ r.mask = 0xFC000000#32) := by
  decide

/-- A word matches a row exactly when it agrees with the row's match word in the opcode and, under opcode 0, the funct. -/
theorem matches_iff_sameRow {r : OpcodeRow} (hr : r ∈ opcodeTable) (w : Word) : r.Matches w ↔ SameRow w r.pattern := by
  obtain ⟨hpat, hmask⟩ := opcodeTable_masks r hr
  have hand : r.Matches w ↔ w &&& r.mask = r.pattern &&& r.mask := by rw [hpat]
  obtain ⟨h0, hm⟩ | ⟨h0, hm⟩ := hmask
  · rw [hand, hm, and_functMask, and_functMask, append_eq_append_iff, append_eq_append_iff]
    simp [SameRow, h0]
  · rw [hand, hm, and_opcodeMask, and_opcodeMask, append_eq_append_iff]
    simp [SameRow, h0]

/-- Each row's match word decodes to the row's own instruction. -/
theorem decode_pattern_mnemonic : ∀ r ∈ opcodeTable, (decode r.pattern).map Instr.mnemonic = .ok r.mnemonic := by decide

/-- No two rows have one mnemonic. -/
theorem eq_of_mnemonic_eq : ∀ r ∈ opcodeTable, ∀ r' ∈ opcodeTable, r.mnemonic = r'.mnemonic → r = r' := by decide

/-- A word that matches a row decodes to an instruction of the row's mnemonic, as the row's match word does. -/
theorem decode_mnemonic_of_matches {r : OpcodeRow} (hr : r ∈ opcodeTable) {w : Word} (h : r.Matches w) :
    (decode w).map Instr.mnemonic = .ok r.mnemonic :=
  ((matches_iff_sameRow hr w).mp h).decode_mnemonic.trans (decode_pattern_mnemonic r hr)

/-- The encoder's word of every instruction lies in the row that bears its mnemonic. -/
theorem exists_row_matches_encode : ∀ i : Instr, ∃ r ∈ opcodeTable, r.mnemonic = i.mnemonic ∧ r.Matches (encode i)
  | .add rs rt rd shamt => Laws.OpcodeRow.add rs rt rd shamt
  | .sub rs rt rd shamt => Laws.OpcodeRow.sub rs rt rd shamt
  | .slt rs rt rd shamt => Laws.OpcodeRow.slt rs rt rd shamt
  | .j target => Laws.OpcodeRow.j target
  | .jal target => Laws.OpcodeRow.jal target
  | .beq rs rt imm => Laws.OpcodeRow.beq rs rt imm
  | .bne rs rt imm => Laws.OpcodeRow.bne rs rt imm
  | .addi rs rt imm => Laws.OpcodeRow.addi rs rt imm
  | .lw rs rt imm => Laws.OpcodeRow.lw rs rt imm
  | .sw rs rt imm => Laws.OpcodeRow.sw rs rt imm
  | .cachectl => Laws.OpcodeRow.cachectl
  | .halt => Laws.OpcodeRow.halt

theorem SameRow.matches_iff {v w : Word} (h : SameRow v w) {r : OpcodeRow} (hr : r ∈ opcodeTable) :
    r.Matches v ↔ r.Matches w := by
  obtain ⟨hop, hf⟩ := h
  rw [matches_iff_sameRow hr, matches_iff_sameRow hr, SameRow, SameRow, hop]
  exact and_congr_right fun hw => imp_congr_right fun h0 => by rw [hf (hw.trans h0)]

/-- A word that decodes matches the row of its instruction's mnemonic, as the instruction's encoding does. -/
theorem exists_row_matches_of_decode {w : Word} {i : Instr} (h : decode w = .ok i) :
    ∃ r ∈ opcodeTable, r.mnemonic = i.mnemonic ∧ r.Matches w := by
  obtain ⟨r, hr, hname, hmatch⟩ := exists_row_matches_encode i
  exact ⟨r, hr, hname, ((sameRow_encode h).matches_iff hr).mp hmatch⟩

/-! ### Table OP -/

/-- A word matches a row exactly when it decodes to an instruction of the row's mnemonic (30_encoding.md R117). -/
theorem matches_iff_decode {r : OpcodeRow} (hr : r ∈ opcodeTable) (w : Word) :
    r.Matches w ↔ ∃ i, decode w = .ok i ∧ i.mnemonic = r.mnemonic := by
  constructor
  · intro h
    have hname := decode_mnemonic_of_matches hr h
    cases hd : decode w with
    | error e => rw [hd] at hname; cases hname
    | ok i => rw [hd] at hname; exact ⟨i, rfl, Except.ok.inj hname⟩
  · rintro ⟨i, hd, hname⟩
    obtain ⟨r', hr', hname', hmatch⟩ := exists_row_matches_of_decode hd
    rwa [eq_of_mnemonic_eq r hr r' hr' (hname.symm.trans hname'.symm)]

/-- A word is illegal exactly when no row matches it (30_encoding.md R117, R122). -/
theorem decode_error_iff (w : Word) : (∃ e, decode w = .error e) ↔ ∀ r ∈ opcodeTable, ¬r.Matches w := by
  constructor
  · rintro ⟨e, hd⟩ r hr hmatch
    obtain ⟨i, hi, -⟩ := (matches_iff_decode hr w).mp hmatch
    cases hd.symm.trans hi
  · intro hnone
    cases hd : decode w with
    | error e => exact ⟨e, rfl⟩
    | ok i =>
      obtain ⟨r, hr, -, hmatch⟩ := exists_row_matches_of_decode hd
      exact absurd hmatch (hnone r hr)

/-- No two rows match one word (30_encoding.md R117). -/
theorem row_unique {w : Word} {r r' : OpcodeRow} (hr : r ∈ opcodeTable) (hr' : r' ∈ opcodeTable) (h : r.Matches w)
    (h' : r'.Matches w) : r = r' :=
  eq_of_mnemonic_eq r hr r' hr' <|
    Except.ok.inj ((decode_mnemonic_of_matches hr h).symm.trans (decode_mnemonic_of_matches hr' h'))

/-- Settles O4: a row's match and the decoder's mnemonic look at the same bits, and no mnemonic stands in two rows. -/
theorem decodeFollowsTheOpcodeTable : Obligations.DecodeFollowsTheOpcodeTable :=
  ⟨fun w _ hr => matches_iff_decode hr w, decode_error_iff, fun _ _ hr _ hr' => row_unique hr hr'⟩

end Sys2Proof
end

section
/-! PROOFS of the statements about the fetch and decode phases and their faults (40_step_cycle.md R142, R143). -/

namespace Sys2Proof.Machine

/-! ### The fetch, on each side of its check of the PC -/

/-- A misaligned PC, or one whose word is not inside the memory, fails the CPU's own check (40_step_cycle.md R142). -/
theorem fetch_of_bad_pc {s : State} (h : s.pc.toNat % 4 ≠ 0 ∨ s.cfg.memorySize < s.pc.toNat + 4) :
    fetch s = .error { kind := .addressError, addr := s.pc } := if_pos h

/-- Past the check the fetch is the bus read at the PC (40_step_cycle.md R142). -/
theorem fetch_of_good_pc {s : State} (haligned : s.pc.toNat % 4 = 0) (hinside : s.pc.toNat + 4 ≤ s.cfg.memorySize) :
    fetch s = memRead s.pc s := if_neg (by omega)

/-- A fetch leaves the byte memory alone. -/
theorem fetch_keeps_mem {w : Word} {s t : State} (h : fetch s = .ok (w, t)) : t.mem = s.mem := by
  obtain ⟨-, -, hr⟩ := fetch_ok h
  obtain ⟨-, -, -, -, -, -, hmem, -⟩ := memRead_frame hr
  exact hmem

/-! ### What a read of memory counts -/

/-- The bus counts reads of memory, the cache does not (20_memory.md R63). -/
@[simp] theorem cacheRead_memReads (a : Word) (s : State) : (cacheRead a s).2.memReads = s.memReads := by
  rw [cacheRead_frame]

/-- Under the invariant a fetch counts one memory read and, with the cache enabled, one hit or one miss
(40_step_cycle.md R142; 20_memory.md R63, R79). -/
theorem fetch_counts {w : Word} {s t : State} (hs : s.Inv) (h : fetch s = .ok (w, t)) :
    t.memReads = s.memReads + 1 ∧
      (s.cacheEnabled = true →
        (t.hits = s.hits + 1 ∧ t.misses = s.misses) ∨ (t.hits = s.hits ∧ t.misses = s.misses + 1)) := by
  obtain ⟨-, -, hr⟩ := fetch_ok h
  cases hr.symm.trans (memRead_of_word hs.toBusInv s.pc hs.pcAligned hs.pcInBounds)
  obtain ⟨hcounts, -⟩ := cacheRead_counts s.pc (countMemRead s)
  exact ⟨cacheRead_memReads s.pc (countMemRead s), hcounts⟩

/-! ### The step on a fault of the fetch and of the decode -/

/-- A raise of the fetch is taken on the state before the step (40_step_cycle.md R149, 60_exceptions.md R205). -/
theorem step_of_fetch_error {s : State} {e : Raised} (hrun : s.run = .running) (hf : fetch s = .error e) :
    step s = .next (takeFault e s) := by
  simp only [step, hrun, hf]

/-- The decode fault is taken on the state the fetch left (40_step_cycle.md R143, R149). -/
theorem step_of_decode_error {s s' : State} {w : Word} {d : DecodeError} (hrun : s.run = .running)
    (hf : fetch s = .ok (w, s')) (hd : decode w = .error d) : step s = .next (takeDecodeFault s') := by
  simp only [step, hrun, hf, hd]

/-- Settles O10: the check of `fetch` decides between its raise, taken with nothing read, and the bus read, which the
invariant makes a read of memory. -/
theorem fetchChecksThePcAndReadsThroughTheBus : Obligations.FetchChecksThePcAndReadsThroughTheBus := by
  refine ⟨fun s hrun hbad => ?_, fun _ => fetch_of_good_pc, fun s hs => ?_⟩
  · exact ⟨_, step_of_fetch_error hrun (fetch_of_bad_pc hbad), rfl, ⟨_, rfl, rfl, rfl⟩, rfl, rfl, rfl⟩
  · obtain ⟨f, hf, -⟩ := fetch_of_inv hs
    exact ⟨_, f, hf, fetch_counts hs hf⟩

/-! ### Illegal words -/

/-- The illegal words: an opcode outside the ten, or opcode 0 and a funct outside the three (40_step_cycle.md R143). -/
theorem decode_error_of_illegal {w : Word}
    (h : opcodeOf w ∉ [0x00#6, 0x02#6, 0x03#6, 0x04#6, 0x05#6, 0x08#6, 0x23#6, 0x2B#6, 0x3E#6, 0x3F#6] ∨
      (opcodeOf w = 0x00#6 ∧ functOf w ∉ [0x20#6, 0x22#6, 0x2A#6])) : ∃ d, decode w = .error d := by
  rcases h with hop | ⟨hop, hf⟩
  · exact ⟨_, decode_eq_iff.mpr (.badOpcode hop)⟩
  · exact ⟨_, decode_eq_iff.mpr (.badFunct hop hf)⟩

/-- Settles O11: an illegal word has no decoding, and the decode fault changes the CPU's own fields only, on the state the
fetch left, which has the old PC and memory. -/
theorem illegalWordTakesTheDecodeFault : Obligations.IllegalWordTakesTheDecodeFault := by
  intro s s' w hrun hf hillegal
  obtain ⟨d, hd⟩ := decode_error_of_illegal hillegal
  have hpc : s'.pc = s.pc := (sameCpu_of_fetch hf).pc
  have hmem : s'.mem = s.mem := fetch_keeps_mem hf
  refine ⟨takeDecodeFault s', step_of_decode_error hrun hf hd, rfl, ?_, rfl, hmem⟩
  rw [takeDecodeFault, takeFault_fault, hpc]

end Sys2Proof.Machine
end

section
/-! PROOFS of the statements about ADD and ADDI (41_arithmetic.md R160, R163). Both write one register and update the PC,
which inside the memory falls through to the next word. -/

namespace Sys2Proof.Machine

/-- A register write changes the register file alone (10_state.md R20). -/
theorem writeReg_frame (d : RegIdx) (v : Word) (s : State) : { writeReg d v s with regs := s.regs } = s := by
  unfold writeReg
  split <;> rfl

/-- After a register write with the latch empty, the PC update moves to the next word of memory (40_step_cycle.md R146). -/
theorem pcUpdate_writeReg_inside {s : State} (hnext : s.next = none) (hin : (s.pc + 4#32).toNat < s.cfg.memorySize)
    (d : RegIdx) (v : Word) :
    pcUpdate (writeReg d v s) = { writeReg d v s with pc := s.pc + 4#32, next := none } := by
  have hnew : newPc (writeReg d v s) = s.pc + 4#32 := by
    rw [newPc_none ((writeReg_next d v s).trans hnext), writeReg_pc]
  exact pcUpdate_inside hnew (by rwa [writeReg_cfg])

/-- What a register write followed by the PC update leaves when the next word is inside the memory: the PC four on, the
value in the destination unless that is register 0, and nothing else changed (10_state.md R21, 40_step_cycle.md R146). -/
theorem writeReg_then_pcUpdate {s : State} (hnext : s.next = none) (hin : (s.pc + 4#32).toNat < s.cfg.memorySize)
    (d : RegIdx) (v : Word) :
    (pcUpdate (writeReg d v s)).pc = s.pc + 4#32 ∧
      (∀ r, readReg r (pcUpdate (writeReg d v s)) = if r = d ∧ d ≠ 0#5 then v else readReg r s) ∧
      { pcUpdate (writeReg d v s) with regs := s.regs, pc := s.pc } = s := by
  refine ⟨?_, fun r => ?_, ?_⟩
  · rw [pcUpdate_writeReg_inside hnext hin]
  · rw [readReg_congr r _ (writeReg d v s) (pcUpdate_regs _), readReg_writeReg]
  · calc { pcUpdate (writeReg d v s) with regs := s.regs, pc := s.pc }
      _ = { writeReg d v s with regs := s.regs, pc := s.pc, next := none } := by
        rw [pcUpdate_writeReg_inside hnext hin]
      _ = { writeReg d v s with regs := s.regs } := by
        rw [← writeReg_pc d v s, ← (writeReg_next d v s).trans hnext]
      _ = s := writeReg_frame d v s

/-- Settles O17: ADD writes the sum of words, which is the sum of the numbers modulo 2^32, and falls through. -/
theorem addWritesTheWrappedSum : Obligations.AddWritesTheWrappedSum := by
  intro rs rt rd shamt s hnext hin
  refine ⟨pcUpdate (writeReg rd (readReg rs s + readReg rt s) s), rfl, ?_⟩
  rw [← BitVec.add_def]
  exact writeReg_then_pcUpdate hnext hin rd (readReg rs s + readReg rt s)

/-- Settles O20: ADDI is ADD with the immediate for the second operand and `rt` for the destination. -/
theorem addiWritesTheWrappedSum : Obligations.AddiWritesTheWrappedSum := by
  intro rs rt imm s hnext hin
  refine ⟨pcUpdate (writeReg rt (readReg rs s + imm) s), rfl, ?_⟩
  rw [← BitVec.add_def]
  exact writeReg_then_pcUpdate hnext hin rt (readReg rs s + imm)

end Sys2Proof.Machine
end

section
/-! PROOFS of the statements about BEQ, BNE, J and their targets (43_control_transfer.md R180 to R184). All three record a
target in the latch and update the PC; a branch that is not taken does as if it had recorded `pc + 4`. -/

namespace Sys2Proof.Machine

/-! ### The targets as numbers -/

/-- The branch target counts four times the signed immediate from the next instruction (43_control_transfer.md R180). -/
theorem branchTarget_eq_ofInt (pc imm : Word) :
    branchTarget pc imm = BitVec.ofInt 32 ((pc.toNat : Int) + 4 + 4 * imm.toInt) := by
  have hshift : imm <<< 2 = 4#32 * imm := by
    rw [BitVec.shiftLeft_eq_mul_twoPow, BitVec.mul_comm]
    rfl
  have hpc : BitVec.ofInt 32 pc.toNat = pc := by rw [BitVec.ofInt_natCast, BitVec.ofNat_toNat, BitVec.setWidth_eq]
  rw [branchTarget, hshift, BitVec.ofInt_add, BitVec.ofInt_add, BitVec.ofInt_mul, BitVec.ofInt_toInt, hpc]
  rfl

/-- An immediate that an encoding carries is a signed number of sixteen bits (30_encoding.md R120). -/
theorem toInt_bounds_of_immFits {imm : Word} (h : ImmFits imm) : -32768 ≤ imm.toInt ∧ imm.toInt ≤ 32767 := by
  have hfield : imm.toInt = (imm.extractLsb' 0 16).toInt :=
    (congrArg BitVec.toInt h).trans (BitVec.toInt_signExtend_of_le (by decide))
  have hlo := BitVec.le_toInt (imm.extractLsb' 0 16)
  have hhi := BitVec.toInt_lt (x := imm.extractLsb' 0 16)
  omega

/-- Settles O33: the target as an integer, the range of the immediate, and the alignment of the target. -/
theorem branchTargetIsPcRelative : Obligations.BranchTargetIsPcRelative := by
  refine fun pc imm => ⟨branchTarget_eq_ofInt pc imm, fun himm => ?_, branchTarget_aligned imm, ?_, ?_⟩
  · obtain ⟨hlo, hhi⟩ := toInt_bounds_of_immFits himm
    omega
  · exact BitVec.add_zero _
  · have hback : 0xFFFFFFFF#32 <<< 2 = -4#32 := by decide
    rw [branchTarget, hback, ← BitVec.sub_eq_add_neg, BitVec.add_sub_cancel]

/-- The region mask keeps the number of the PC's 256-MiB region (43_control_transfer.md R183). -/
theorem toNat_and_regionMask (pc : Word) : (pc &&& 0xF0000000#32).toNat = pc.toNat / 2 ^ 28 * 2 ^ 28 := by
  have hmask : pc &&& 0xF0000000#32 = pc >>> 28 <<< 28 := (BitVec.shiftLeft_ushiftRight (x := pc) (n := 28)).symm
  rw [hmask, BitVec.toNat_shiftLeft, BitVec.toNat_ushiftRight, Nat.shiftLeft_eq, Nat.shiftRight_eq_div_pow]
  omega

/-- The jump's field in place is four times its number: the shift loses no bit of it. -/
theorem toNat_shifted_target (target : BitVec 26) : (target.setWidth 32 <<< 2).toNat = 4 * target.toNat := by
  rw [BitVec.toNat_shiftLeft, BitVec.toNat_setWidth, Nat.shiftLeft_eq]
  omega

/-- The jump target is the PC's region and the field below it: the two share no bit (43_control_transfer.md R183). -/
theorem toNat_jumpTarget (pc : Word) (target : BitVec 26) :
    (jumpTarget pc target).toNat = pc.toNat / 2 ^ 28 * 2 ^ 28 + 4 * target.toNat := by
  have hfield : 4 * target.toNat < 2 ^ 28 := by omega
  rw [jumpTarget, BitVec.toNat_or, toNat_and_regionMask, toNat_shifted_target, Nat.mul_comm (pc.toNat / 2 ^ 28),
    Nat.two_pow_add_eq_or_of_lt hfield]

/-- Settles O34: each clause is arithmetic on the target's number. -/
theorem jumpTargetStaysInItsRegion : Obligations.JumpTargetStaysInItsRegion := by
  intro pc target
  have hnum := toNat_jumpTarget pc target
  refine ⟨hnum, jumpTarget_aligned pc target, ?_, fun c hsmall hin => ?_⟩
  · omega
  · apply BitVec.eq_of_toNat_eq
    rw [hnum, toNat_shifted_target]
    omega

/-! ### The PC update after a recorded target -/

/-- Recording the sequential successor changes nothing that the PC update does on an empty latch (40_step_cycle.md R146). -/
theorem pcUpdate_setNext_sequential {s : State} (hnext : s.next = none) :
    pcUpdate (setNext (s.pc + 4#32) s) = pcUpdate s := by
  rw [← newPc_none hnext]
  rfl

/-- BEQ as one recorded target, taken or not (43_control_transfer.md R181). -/
theorem exec_beq {s : State} (hnext : s.next = none) (rs rt : RegIdx) (imm : Word) :
    exec (.beq rs rt imm) s =
      .next (pcUpdate (setNext (if readReg rs s = readReg rt s then branchTarget s.pc imm else s.pc + 4#32) s)) := by
  by_cases heq : readReg rs s = readReg rt s
  · simp [exec, execBeq, wordsEqual, heq]
  · simp [exec, execBeq, wordsEqual, heq, pcUpdate_setNext_sequential hnext]

/-- BNE as one recorded target, taken or not (43_control_transfer.md R182). -/
theorem exec_bne {s : State} (hnext : s.next = none) (rs rt : RegIdx) (imm : Word) :
    exec (.bne rs rt imm) s =
      .next (pcUpdate (setNext (if readReg rs s ≠ readReg rt s then branchTarget s.pc imm else s.pc + 4#32) s)) := by
  by_cases heq : readReg rs s = readReg rt s
  · simp [exec, execBne, wordsEqual, heq, pcUpdate_setNext_sequential hnext]
  · simp [exec, execBne, wordsEqual, heq]

/-- J as one recorded target (43_control_transfer.md R184). -/
theorem exec_j (target : BitVec 26) (s : State) :
    exec (.j target) s = .next (pcUpdate (setNext (jumpTarget s.pc target) s)) := rfl

/-- The two outcomes of an instruction that records a target and updates the PC: the target inside the memory becomes the
PC, and one outside it faults (40_step_cycle.md R146). -/
theorem exec_of_recorded_target {i : Instr} {s : State} {new : Word} (hx : exec i s = .next (pcUpdate (setNext new s))) :
    (new.toNat < s.cfg.memorySize → exec i s = .next { s with pc := new, next := none }) ∧
      (s.cfg.memorySize ≤ new.toNat →
        ∃ t, exec i s = .next t ∧ t.run = .halted ∧
          ∃ f, t.fault = some f ∧ f.kind = .addressError ∧ f.addr = new) := by
  have hnew : newPc (setNext new s) = new := newPc_some (setNext_next new s)
  refine ⟨fun hin => hx.trans (congrArg _ (pcUpdate_inside hnew hin)), fun hout => ?_⟩
  exact ⟨_, hx.trans (congrArg _ (pcUpdate_outside hnew hout)), rfl, _, rfl, rfl, rfl⟩

/-! ### The statements -/

/-- Settles O29: BEQ records a target, and an empty latch stays empty. -/
theorem beqGoesToItsTargetWhenEqual : Obligations.BeqGoesToItsTargetWhenEqual := by
  rintro rs rt imm s new hnext rfl
  have h := exec_of_recorded_target (exec_beq hnext rs rt imm)
  rwa [← hnext] at h

/-- Settles O30: BNE is BEQ with the test reversed. -/
theorem bneGoesToItsTargetWhenDifferent : Obligations.BneGoesToItsTargetWhenDifferent := by
  rintro rs rt imm s new hnext rfl
  have h := exec_of_recorded_target (exec_bne hnext rs rt imm)
  rwa [← hnext] at h

/-- Settles O31: J records its target. -/
theorem jGoesToItsTarget : Obligations.JGoesToItsTarget := by
  rintro target s new rfl
  exact exec_of_recorded_target (exec_j target s)

end Sys2Proof.Machine
end

section
/-! PROOFS of the statements about the step and the invariant (40_step_cycle.md R141 to R151, 10_state.md R44). Under the
invariant the fetch leaves one known state, `afterFetch`, and the step is the meaning of the decoded instruction there. -/

namespace Sys2Proof.Machine

/-! ### The invariant -/

/-- Settles O56, by `step_keeps_inv`: the fetch, each meaning and each fault keep the invariant. -/
theorem stepKeepsTheInvariant : Obligations.StepKeepsTheInvariant := fun _ _ => step_keeps_inv

/-- Settles O57, by `applyHostOp_keeps_inv`: a step, CPU reset, and the commands that leave the CPU alone. -/
theorem hostCommandsKeepTheInvariant : Obligations.HostCommandsKeepTheInvariant := fun op _ => applyHostOp_keeps_inv op

/-- Settles O55: machine build under any legal configuration gives the invariant, and the standard one is legal. -/
theorem resetMeetsTheInvariant : Obligations.ResetMeetsTheInvariant := init_inv (by decide)

/-! ### What the fetch leaves under the invariant -/

/-- The state after the read of the word at the PC from memory (40_step_cycle.md R142). -/
def afterFetch (s : State) : State := (cacheRead s.pc (countMemRead s)).2

/-- Under the invariant the fetch answers the memory's word at the PC and leaves `afterFetch`. -/
theorem fetch_eq_of_inv {s : State} (hs : s.Inv) : fetch s = .ok (backRead s.mem s.pc.toNat, afterFetch s) := by
  obtain ⟨f, hf, -⟩ := fetch_of_inv hs
  obtain ⟨-, -, hr⟩ := fetch_ok hf
  rw [hf, ← hr]
  exact memRead_of_word hs.toBusInv s.pc hs.pcAligned hs.pcInBounds

theorem afterFetch_sameCpu {s : State} (hs : s.Inv) : SameCpu s (afterFetch s) := sameCpu_of_fetch (fetch_eq_of_inv hs)

theorem afterFetch_inv {s : State} (hs : s.Inv) : (afterFetch s).Inv := by
  obtain ⟨f, hf, -, hinv⟩ := fetch_of_inv hs
  cases hf.symm.trans (fetch_eq_of_inv hs)
  exact hinv

/-- A read of memory changes the count of memory reads, the lines and the cache's counters only (20_memory.md R74). -/
theorem memoryRead_frame (a : Word) (s : State) :
    { (cacheRead a (countMemRead s)).2 with
      memReads := s.memReads, lines := s.lines, hits := s.hits, misses := s.misses } = s := by
  rw [cacheRead_frame]
  rfl

/-! ### The step, from the word in memory -/

/-- After a fetch and a decode that succeed the step is the meaning of the instruction (40_step_cycle.md R149). -/
theorem step_of_decode_ok {s s' : State} {w : Word} {i : Instr} (hrun : s.run = .running) (hf : fetch s = .ok (w, s'))
    (hd : decode w = .ok i) : step s = exec i (beginExecute s') := by
  simp only [step, hrun, hf, hd]

theorem step_eq_exec {s : State} (hs : s.Inv) (hrun : s.run = .running) {i : Instr}
    (hd : decode (backRead s.mem s.pc.toNat) = .ok i) : step s = exec i (afterFetch s) := by
  rw [step_of_decode_ok hrun (fetch_eq_of_inv hs) hd, beginExecute_of_inv (afterFetch_inv hs)]

theorem step_eq_decodeFault {s : State} (hs : s.Inv) (hrun : s.run = .running) {d : DecodeError}
    (hd : decode (backRead s.mem s.pc.toNat) = .error d) : step s = .next (takeDecodeFault (afterFetch s)) :=
  step_of_decode_error hrun (fetch_eq_of_inv hs) hd

/-- Settles O8: `beginExecute` empties the latch. -/
theorem stepRunsTheDecodedInstruction : Obligations.StepRunsTheDecodedInstruction := fun _ _ _ _ => step_of_decode_ok

/-- Settles O9: the state is the one the fetch leaves. -/
theorem stepRunsTheInstructionInMemory : Obligations.StepRunsTheInstructionInMemory := by
  intro s i hs hrun hd
  obtain ⟨hreads, hcounts⟩ := fetch_counts hs (fetch_eq_of_inv hs)
  refine ⟨afterFetch s, step_eq_exec hs hrun hd, (afterFetch_inv hs).toBusInv, hreads, memoryRead_frame s.pc s, hcounts,
    fun hdis => ?_⟩
  have hread : afterFetch s = countMemRead s := (cacheRead_counts s.pc (countMemRead s)).2 hdis
  rw [hread]
  exact ⟨rfl, rfl, rfl⟩

/-! ### Faults and reports -/

/-- Settles O12: the step and its report look at the run state first. -/
theorem haltedStepChangesNothing : Obligations.HaltedStepChangesNothing := fun s hh =>
  ⟨by rw [step_next, afterStep_of_halted hh], by unfold stepReport; rw [hh]⟩

/-- A meaning that leaves a fault record on a state without one leaves the PC where it was (40_step_cycle.md R148). -/
theorem exec_fault_keeps_pc {i : Instr} {s t : State} (hnone : s.fault = none) (h : exec i s = .next t)
    (hfault : t.fault ≠ none) : t.pc = s.pc := by
  rcases exec_cases h with ⟨-, u, hu, rfl⟩ | ⟨e, -, rfl⟩ | ⟨-, rfl | rfl⟩
  · rcases pcUpdate_cases u with ⟨-, hp⟩ | ⟨-, hp⟩ <;> rw [hp] at hfault ⊢
    · exact absurd (hu.fault.trans hnone) hfault
    · exact hu.pc
  · rfl
  · rfl
  · rcases pcUpdate_cases (enterHalted s) with ⟨-, hp⟩ | ⟨-, hp⟩ <;> rw [hp] at hfault ⊢
    · exact absurd hnone hfault
    · rfl

/-- Settles O14: the PC is kept by each phase that can fault, and the invariant after the step says the rest. -/
theorem faultingStepKeepsThePc : Obligations.FaultingStepKeepsThePc := by
  intro s t f hs hrun h hf
  have hfault : t.fault ≠ none := by rw [hf]; nofun
  have hpc : t.pc = s.pc := by
    obtain ⟨u, hcpu, hu, ⟨-, rfl⟩ | ⟨i, -, hx⟩⟩ := step_of_inv hs hrun h
    · exact hcpu.pc
    · exact (exec_fault_keeps_pc (hu.noFault (hcpu.run.trans hrun)) hx hfault).trans hcpu.pc
  have ht := step_keeps_inv hs h
  obtain ⟨hrecord, hkind⟩ := ht.faultRecord f hf
  refine ⟨hpc, ht.faultHalted hfault, ht.latchClear, hrecord.trans hpc, ?_⟩
  cases hk : f.kind with
  | configurationError => exact absurd hk hkind
  | decodeError => exact .inl rfl
  | addressError => exact .inr (.inl rfl)
  | ioAddressError => exact .inr (.inr rfl)

/-! The report is `Halted` on a HALTED CPU, and else read off the fault record the step left (40_step_cycle.md R150). -/

theorem stepReport_halted_iff (s : State) : stepReport s = .halted ↔ s.run = .halted := by
  cases hrun : s.run with
  | halted => simp [stepReport, hrun]
  | running => cases hf : (afterStep s).fault <;> simp [stepReport, hrun, hf]

theorem stepReport_faulted {s : State} {k : ErrorKind} (h : stepReport s = .faulted k) :
    ∃ f, (afterStep s).fault = some f ∧ f.kind = k := by
  cases hrun : s.run with
  | halted => simp [stepReport, hrun] at h
  | running =>
    cases hf : (afterStep s).fault with
    | none => simp [stepReport, hrun, hf] at h
    | some f => exact ⟨f, rfl, by simpa [stepReport, hrun, hf] using h⟩

theorem stepReport_ok_iff (s : State) : stepReport s = .ok ↔ s.run = .running ∧ (afterStep s).fault = none := by
  cases hrun : s.run with
  | halted => simp [stepReport, hrun]
  | running => cases hf : (afterStep s).fault <;> simp [stepReport, hrun, hf]

/-- HALT with the switch off is the transition to HALTED (44_system.md R190). -/
theorem exec_halt_switch_off {s : State} (h : s.cfg.haltAdvancesPc = false) : exec .halt s = .next (enterHalted s) := by
  simp [exec, execHalt, h]

/-- HALT with the switch on updates the PC after it (44_system.md R190). -/
theorem exec_halt_switch_on {s : State} (h : s.cfg.haltAdvancesPc = true) :
    exec .halt s = .next (pcUpdate (enterHalted s)) := by
  simp [exec, execHalt, h]

/-- Settles O13, report by report. -/
theorem stepReportsItsOutcome : Obligations.StepReportsItsOutcome := by
  intro s hs
  refine ⟨stepReport_halted_iff s, fun h => afterStep_of_halted ((stepReport_halted_iff s).mp h), fun k h => ?_,
    fun h => ?_, fun hrun hd hswitch => ?_⟩
  · obtain ⟨f, hf, hk⟩ := stepReport_faulted h
    have hinv := step_keeps_inv hs (step_next s)
    exact ⟨hinv.faultHalted (by rw [hf]; nofun), f, hf, hk⟩
  · obtain ⟨hrun, hnone⟩ := (stepReport_ok_iff s).mp h
    refine ⟨hnone, ?_⟩
    cases hd : decode (backRead s.mem s.pc.toNat) with
    | error d =>
      rw [afterStep_eq (step_eq_decodeFault hs hrun hd)] at hnone
      cases hnone
    | ok i =>
      exact ⟨i, afterFetch s, rfl, fetch_eq_of_inv hs, step_of_decode_ok hrun (fetch_eq_of_inv hs) hd⟩
  · have hcpu := afterFetch_sameCpu hs
    have hstep : afterStep s = enterHalted (afterFetch s) :=
      afterStep_eq ((step_eq_exec hs hrun hd).trans (exec_halt_switch_off (by rw [hcpu.cfg, hswitch])))
    rw [stepReport_ok_iff, hstep]
    exact ⟨⟨hrun, hcpu.fault.trans (hs.noFault hrun)⟩, rfl⟩

/-! ### Run -/

/-- A run that ends has stepped to a HALTED state, and any larger fuel ends it there (40_step_cycle.md R151). -/
theorem runFor_ended {n : Nat} {s t : State} (h : runFor n s = .ended t) :
    Steps s t ∧ RunOver t ∧ ∀ m, n ≤ m → runFor m s = .ended t := by
  induction n generalizing s with
  | zero =>
    cases hrun : s.run with
    | halted =>
      cases (runFor_halted hrun 0).symm.trans h
      exact ⟨.refl _, hrun, fun m _ => runFor_halted hrun m⟩
    | running => simp [runFor, hrun] at h
  | succ n ih =>
    cases hrun : s.run with
    | halted =>
      cases (runFor_halted hrun (n + 1)).symm.trans h
      exact ⟨.refl _, hrun, fun m _ => runFor_halted hrun m⟩
    | running =>
      rw [runFor_running hrun] at h
      obtain ⟨hsteps, hover, hmore⟩ := ih h
      refine ⟨.step _ _ _ (step_next s) hsteps, hover, fun m hm => ?_⟩
      cases m with
      | zero => omega
      | succ m => rw [runFor_running hrun, hmore m (by omega)]

/-- Steps to a HALTED state are a run that some fuel ends there (40_step_cycle.md R151). -/
theorem exists_runFor_of_steps {s t : State} (h : Steps s t) (hover : RunOver t) : ∃ n, runFor n s = .ended t := by
  induction h with
  | refl s => exact ⟨0, runFor_halted hover 0⟩
  | step s u t hstep _ ih =>
    obtain ⟨n, hn⟩ := ih hover
    cases hrun : s.run with
    | halted =>
      rw [← afterStep_eq hstep, afterStep_of_halted hrun] at hn
      exact ⟨n, hn⟩
    | running => exact ⟨n + 1, by rw [runFor_running hrun, afterStep_eq hstep, hn]⟩

/-- Settles O16: induction on the fuel one way and on the steps the other. -/
theorem runIsTheClosureOfTheStep : Obligations.RunIsTheClosureOfTheStep :=
  ⟨fun _ _ _ => runFor_ended, fun _ _ => exists_runFor_of_steps⟩

end Sys2Proof.Machine
end

section
/-! PROOFS of the statements that the encoder and the decoder are each other's inverse, and of label resolution
(30_encoding.md R125, R132). A word is its fields put together, and the fields of an encoded word are the operands. -/

namespace Sys2Proof

/-! ### From the instruction to the word and back -/

/-- Settles O1: each word is laid out from the field tables. -/
theorem handWrittenWordsDecode : Obligations.HandWrittenWordsDecode := by
  unfold Obligations.HandWrittenWordsDecode
  decide

/-- The decoder reads off the encoded word the operands that went into it (30_encoding.md R125). -/
theorem decode_encode {i : Instr} (h : i.WellFormed = true) : decode (encode i) = .ok i := by
  cases i with
  | cachectl => rfl
  | halt => rfl
  | add | sub | slt => simp [decode, decodeRType, encode]
  | j | jal => simp [decode, encode]
  | beq | bne | addi | lw | sw =>
    have himm := immOf_encodeI (h := of_decide_eq_true h)
    simp [decode, encode, himm]

/-- Settles O2: the decoder inverts the encoder, and the bytes in memory order are the word again. -/
theorem decodeOfEncodeIsTheInstruction : Obligations.DecodeOfEncodeIsTheInstruction := fun i hi =>
  ⟨decode_encode hi, fun rest => by rw [decodeBytes, be32_of_bytes, decode_encode hi]⟩

/-! ### From the word to the instruction and back -/

/-- The three fields that Tables F-R and F-I share, side by side, are the upper half (30_encoding.md R113, R114). -/
theorem upperHalf_of_fields (w : Word) : opcodeOf w ++ rsOf w ++ rtOf w = w.extractLsb' 16 16 := by
  unfold opcodeOf rsOf rtOf
  rw [BitVec.extractLsb'_append_extractLsb'_eq_extractLsb' (show 26 = 21 + 5 from rfl),
    BitVec.extractLsb'_append_extractLsb'_eq_extractLsb' (show 21 = 16 + 5 from rfl)]

/-- The fields of Table F-R, side by side, are the word (30_encoding.md R113). -/
theorem encodeR_of_fields {w : Word} (hop : opcodeOf w = 0x00#6) :
    encodeR (rsOf w) (rtOf w) (rdOf w) (shamtOf w) (functOf w) = w := by
  unfold encodeR
  rw [← hop, upperHalf_of_fields]
  unfold rdOf shamtOf functOf
  rw [BitVec.extractLsb'_append_extractLsb'_eq_extractLsb' (show 16 = 11 + 5 from rfl),
    BitVec.extractLsb'_append_extractLsb'_eq_extractLsb' (show 11 = 6 + 5 from rfl),
    BitVec.extractLsb'_append_extractLsb'_eq_extractLsb' (show 6 = 0 + 6 from rfl)]
  exact BitVec.extractLsb'_eq_self

/-- Sign extension keeps the sixteen bits it extends (30_encoding.md R120). -/
theorem extractLsb'_sext32 (v : BitVec 16) : (sext32 v).extractLsb' 0 16 = v := by
  unfold sext32
  ext k hk
  simp [BitVec.getElem_signExtend, hk, show k < 32 by omega]

/-- The decoder's immediates are sign extensions (30_encoding.md R120). -/
theorem immFits_immOf (w : Word) : ImmFits (immOf w) := by
  unfold immOf ImmFits
  rw [extractLsb'_sext32]
  rfl

/-- The fields of Table F-I, side by side, are the word (30_encoding.md R114). -/
theorem encodeI_of_fields (w : Word) : encodeI (opcodeOf w) (rsOf w) (rtOf w) (immOf w) = w := by
  unfold encodeI immOf
  rw [extractLsb'_sext32, upperHalf_of_fields,
    BitVec.extractLsb'_append_extractLsb'_eq_extractLsb' (show 16 = 0 + 16 from rfl)]
  exact BitVec.extractLsb'_eq_self

/-- The fields of Table F-J, side by side, are the word (30_encoding.md R115). -/
theorem encodeJ_of_fields (w : Word) : encodeJ (opcodeOf w) (targetOf w) = w := by
  unfold encodeJ opcodeOf targetOf
  rw [BitVec.extractLsb'_append_extractLsb'_eq_extractLsb' (show 26 = 0 + 26 from rfl)]
  exact BitVec.extractLsb'_eq_self

/-- What the decoder returns can be encoded (30_encoding.md R111). -/
theorem wellFormed_of_decode {w : Word} {i : Instr} (h : decode w = .ok i) : i.WellFormed = true := by
  rw [decode_eq_iff] at h
  cases h with
  | beq | bne | addi | lw | sw => exact decide_eq_true (immFits_immOf w)
  | _ => rfl

/-- Encoding what the decoder returns: the word, or for the special rows its opcode with zeros below (30_encoding.md
R125). -/
theorem encode_of_decode {w : Word} {i : Instr} (h : decode w = .ok i) :
    encode i = if opcodeOf w = 0x3E#6 ∨ opcodeOf w = 0x3F#6 then w &&& 0xFC000000#32 else w := by
  have hR := encodeR_of_fields (w := w)
  have hI := encodeI_of_fields w
  have hJ := encodeJ_of_fields w
  rw [decode_eq_iff] at h
  cases h with
  | add hop hf | sub hop hf | slt hop hf => simpa [encode, hop, hf] using hR hop
  | j hop | jal hop => simpa [encode, hop] using hJ
  | beq hop | bne hop | addi hop | lw hop | sw hop => simpa [encode, hop] using hI
  | cachectl hop | halt hop =>
    rw [if_pos (by simp [hop]), and_opcodeMask, hop]
    rfl

/-- Settles O3: a word is its fields put together, and the fields are the operands. -/
theorem encodeOfDecodeIsTheCanonicalWord : Obligations.EncodeOfDecodeIsTheCanonicalWord := fun _ _ h =>
  ⟨wellFormed_of_decode h, encode_of_decode h⟩

end Sys2Proof

namespace Sys2Proof.Machine

/-! ### Label resolution -/

/-- A number of sixteen signed bits is an immediate an encoding can carry (30_encoding.md R120). -/
theorem immFits_ofInt {q : Int} (hlo : -32768 ≤ q) (hhi : q ≤ 32767) : ImmFits (BitVec.ofInt 32 q) := by
  refine BitVec.eq_of_toInt_eq ?_
  rw [BitVec.toInt_signExtend_of_le (by decide), ← BitVec.setWidth_eq_extractLsb' (by decide), BitVec.toInt_setWidth,
    BitVec.toInt_ofInt, BitVec.toNat_ofInt, Int.bmod_def, Int.bmod_def]
  omega

/-- The immediate that resolves a branch leads to the label (30_encoding.md R132, 43_control_transfer.md R180). -/
theorem branchTarget_of_resolved {a l imm : Word} (h : branchImmFor a l = some imm) :
    ImmFits imm ∧ branchTarget a imm = l := by
  simp only [branchImmFor, Option.ite_none_right_eq_some, Option.some.injEq] at h
  obtain ⟨⟨hdvd, hlo, hhi⟩, rfl⟩ := h
  have hq := BitVec.toInt_ofInt_eq_self (w := 32) (by decide)
    (n := ((l.toNat : Int) - ((a.toNat : Int) + 4)) / 4) (by omega) (by omega)
  have hsum : (a.toNat : Int) + 4 + 4 * (((l.toNat : Int) - ((a.toNat : Int) + 4)) / 4) = l.toNat := by omega
  refine ⟨immFits_ofInt hlo hhi, ?_⟩
  rw [branchTarget_eq_ofInt, hq, hsum, BitVec.ofInt_natCast, BitVec.ofNat_toNat, BitVec.setWidth_eq]

/-- The high four bits of an address are the number of its 256-MiB region (43_control_transfer.md R183). -/
theorem regionBits_eq_iff (a l : Word) :
    l.extractLsb' 28 4 = a.extractLsb' 28 4 ↔ l.toNat / 2 ^ 28 = a.toNat / 2 ^ 28 := by
  rw [← BitVec.toNat_inj, BitVec.extractLsb'_toNat, BitVec.extractLsb'_toNat, Nat.shiftRight_eq_div_pow,
    Nat.shiftRight_eq_div_pow]
  omega

/-- The field that resolves a jump leads to the label (30_encoding.md R132, 43_control_transfer.md R183). -/
theorem jumpTarget_of_resolved {a l : Word} {target : BitVec 26} (h : jumpTargetFor a l = some target) :
    jumpTarget a target = l := by
  simp only [jumpTargetFor, regionBits_eq_iff, Option.ite_none_right_eq_some, Option.some.injEq] at h
  obtain ⟨⟨haligned, hregion⟩, rfl⟩ := h
  refine BitVec.eq_of_toNat_eq ?_
  rw [toNat_jumpTarget, BitVec.extractLsb'_toNat, Nat.shiftRight_eq_div_pow]
  omega

/-- Settles O7: resolution is an `if` on the conditions of the statement, and what it answers leads to the label. -/
theorem labelResolutionInvertsTheTargets : Obligations.LabelResolutionInvertsTheTargets := by
  refine ⟨fun a l => ⟨?_, fun imm => branchTarget_of_resolved⟩, fun a l => ⟨?_, fun target => jumpTarget_of_resolved⟩⟩
  · simp [branchImmFor]
  · simp [jumpTargetFor, regionBits_eq_iff]

/-! ### Byte order -/

/-- The word of four bytes as a number, the first byte the highest (20_memory.md R53). -/
theorem toNat_be32 (b0 b1 b2 b3 : Byte) :
    (be32 b0 b1 b2 b3).toNat = b0.toNat * 2 ^ 24 + b1.toNat * 2 ^ 16 + b2.toNat * 2 ^ 8 + b3.toNat := by
  unfold be32
  rw [BitVec.toNat_append, BitVec.toNat_append, BitVec.toNat_append, ← Nat.shiftLeft_add_eq_or_of_lt b1.isLt,
    ← Nat.shiftLeft_add_eq_or_of_lt b2.isLt, ← Nat.shiftLeft_add_eq_or_of_lt b3.isLt]
  simp only [Nat.shiftLeft_eq]
  omega

/-- Settles O50: `read_backWrite` at each of the four addresses, and `toNat_be32` for the two reads. -/
theorem wordsAreBigEndian : Obligations.WordsAreBigEndian := by
  refine ⟨fun m a v hm => ?_, fun m a => toNat_be32 .., fun l off => toNat_be32 ..⟩
  simp [read_backWrite _ _ _ _ hm, wordByte]

end Sys2Proof.Machine
end

section
/-! PROOFS of the statements about the ten instructions that reach no data: SUB, SLT, JAL, HALT, CACHECTL, and the frame of
all ten (41_arithmetic.md, 43_control_transfer.md, 44_system.md; 60_exceptions.md R207). -/

namespace Sys2Proof.Machine

/-! ### What the CPU's own operations leave alone -/

/-- Two states agree outside what the CPU owns: memory, cache, I/O side, counters and configuration are the same
(10_state.md R34 to R40). -/
def SameBus (s t : State) : Prop :=
  { t with regs := s.regs, pc := s.pc, next := s.next, run := s.run, fault := s.fault } = s

theorem SameBus.refl (s : State) : SameBus s s := rfl

theorem SameBus.trans {s t u : State} (hst : SameBus s t) (htu : SameBus t u) : SameBus s u := by
  unfold SameBus at *
  rw [← htu] at hst
  exact hst

theorem writeReg_sameBus (d : RegIdx) (v : Word) (s : State) : SameBus s (writeReg d v s) := by
  unfold writeReg
  split <;> rfl

theorem pcUpdate_sameBus (s : State) : SameBus s (pcUpdate s) := by
  unfold pcUpdate
  split <;> rfl

/-- What the PC update does to the run state and the record: nothing, or the fault at the PC, which is kept
(40_step_cycle.md R146, 60_exceptions.md R206). -/
theorem pcUpdate_run_fault (s : State) :
    ((pcUpdate s).run = s.run ∧ (pcUpdate s).fault = s.fault) ∨
      ((pcUpdate s).run = .halted ∧ (pcUpdate s).pc = s.pc ∧
        (pcUpdate s).fault = some { kind := .addressError, pc := s.pc, addr := newPc s }) := by
  rcases pcUpdate_cases s with ⟨-, hp⟩ | ⟨-, hp⟩ <;> rw [hp]
  · exact .inl ⟨rfl, rfl⟩
  · exact .inr ⟨rfl, rfl, rfl⟩

/-! ### SUB and SLT -/

/-- Settles O18: SUB is ADD with the difference, which is the integer difference modulo 2^32. -/
theorem subWritesTheWrappedDifference : Obligations.SubWritesTheWrappedDifference := by
  intro rs rt rd shamt s hnext hin
  have hdiff : BitVec.ofInt 32 ((readReg rs s).toNat - (readReg rt s).toNat) = readReg rs s - readReg rt s := by
    rw [← BitVec.toInt_inj, BitVec.toInt_ofInt, BitVec.toInt_sub, BitVec.toInt_eq_toNat_bmod,
      BitVec.toInt_eq_toNat_bmod, Int.sub_bmod_bmod, Int.bmod_sub_bmod]
  refine ⟨pcUpdate (writeReg rd (readReg rs s - readReg rt s) s), rfl, ?_⟩
  rw [hdiff]
  exact writeReg_then_pcUpdate hnext hin rd (readReg rs s - readReg rt s)

/-- Settles O19: SLT is ADD with the comparison. -/
theorem sltWritesTheSignedComparison : Obligations.SltWritesTheSignedComparison := fun rs rt rd _ s hnext hin =>
  ⟨_, rfl, writeReg_then_pcUpdate hnext hin rd (signedLessWord (readReg rs s) (readReg rt s))⟩

/-! ### The last word of memory -/

/-- What a register write followed by the PC update leaves when the next word is outside the memory: the value in the
destination, the fault of the PC update, and nothing else changed (60_exceptions.md R207). -/
theorem writeReg_then_pcUpdate_outside {s : State} (hnext : s.next = none)
    (hout : s.cfg.memorySize ≤ (s.pc + 4#32).toNat) (d : RegIdx) (v : Word) :
    (∀ r, readReg r (pcUpdate (writeReg d v s)) = if r = d ∧ d ≠ 0#5 then v else readReg r s) ∧
      (pcUpdate (writeReg d v s)).run = .halted ∧
      (pcUpdate (writeReg d v s)).fault = some { kind := .addressError, pc := s.pc, addr := s.pc + 4#32 } ∧
      { pcUpdate (writeReg d v s) with regs := s.regs, run := s.run, fault := s.fault } = s := by
  have hnew : newPc (writeReg d v s) = s.pc + 4#32 := by
    rw [newPc_none ((writeReg_next d v s).trans hnext), writeReg_pc]
  have hp := pcUpdate_outside hnew (by rwa [writeReg_cfg])
  refine ⟨fun r => ?_, ?_, ?_, ?_⟩
  · rw [readReg_congr r _ (writeReg d v s) (pcUpdate_regs _), readReg_writeReg]
  · rw [hp, takeFault_run]
  · rw [hp, takeFault_fault, writeReg_pc]
  · rw [hp]
    calc { takeFault { kind := .addressError, addr := s.pc + 4#32 } (writeReg d v s) with
          regs := s.regs, run := s.run, fault := s.fault }
      _ = { s with next := none } :=
        congrArg (fun u : State => { u with next := none, run := s.run, fault := s.fault }) (writeReg_frame d v s)
      _ = s := by rw [← hnext]

/-- Settles O21: each of the five forms is a register write and the PC update, CACHECTL a discarded one. -/
theorem fallingOffMemoryFaultsAfterTheRegisterWrite : Obligations.FallingOffMemoryFaultsAfterTheRegisterWrite := by
  intro s hnext hout i d v hi
  have hx : exec i s = .next (pcUpdate (writeReg d v s)) := by
    rcases hi with ⟨rs, rt, sh, rfl, rfl⟩ | ⟨rs, rt, sh, rfl, rfl⟩ | ⟨rs, rt, sh, rfl, rfl⟩ | ⟨rs, imm, rfl, rfl⟩ |
      ⟨rfl, rfl⟩ <;> rfl
  exact ⟨_, hx, writeReg_then_pcUpdate_outside hnext hout d v⟩

/-! ### JAL, HALT, CACHECTL -/

/-- The execute phase of JAL: the link, then the target in the latch (43_control_transfer.md R185). -/
def jalExecuted (target : BitVec 26) (s : State) : State :=
  setNext (jumpTarget s.pc target) (writeReg raIdx (nextSequential s.pc) s)

theorem readReg_jalExecuted (target : BitVec 26) (s : State) (r : RegIdx) :
    readReg r (jalExecuted target s) = if r = 31#5 then s.pc + 4#32 else readReg r s := by
  have hread : readReg r (jalExecuted target s) = readReg r (writeReg raIdx (nextSequential s.pc) s) :=
    readReg_congr r _ _ rfl
  rw [hread, readReg_writeReg]
  simp [raIdx, nextSequential]

/-- Settles O32: JAL writes the link, records the target and updates the PC, which reads the target alone. -/
theorem jalLinksAndJumps : Obligations.JalLinksAndJumps := by
  rintro target s new rfl
  have hx : exec (.jal target) s = .next (pcUpdate (jalExecuted target s)) := rfl
  have hnew : newPc (jalExecuted target s) = jumpTarget s.pc target := newPc_some rfl
  have hcfg : (jalExecuted target s).cfg = s.cfg := writeReg_cfg ..
  refine ⟨fun hin => ?_, fun hout => ?_⟩
  · rw [hx, pcUpdate_inside hnew (by rwa [hcfg])]
    exact ⟨_, rfl, rfl, rfl, readReg_jalExecuted target s, writeReg_frame ..⟩
  · rw [hx, pcUpdate_outside hnew (by rwa [hcfg])]
    have hpc : (jalExecuted target s).pc = s.pc := writeReg_pc ..
    refine ⟨_, rfl, hpc, rfl, rfl, ?_, readReg_jalExecuted target s, ?_⟩
    · rw [takeFault_fault, hpc]
      rfl
    · exact congrArg (fun u : State => { u with next := s.next, run := s.run, fault := s.fault }) (writeReg_frame ..)

/-- Settles O35: the switch decides whether the PC update follows, and the latch is empty for it. -/
theorem haltHaltsWithoutAFault : Obligations.HaltHaltsWithoutAFault := by
  intro s
  refine ⟨fun hoff => ?_, fun hon hnext => ?_⟩
  · exact exec_halt_switch_off hoff
  · have hnew : newPc (enterHalted s) = s.pc + 4#32 := newPc_none hnext
    rw [exec_halt_switch_on hon]
    refine ⟨fun hin => ?_, fun hout => ?_⟩
    · rw [pcUpdate_inside hnew hin, ← hnext]
      rfl
    · rw [pcUpdate_outside hnew hout, takeFault, ← hnext]
      rfl

/-- Settles O36: CACHECTL is the PC update. -/
theorem cachectlOnlyAdvances : Obligations.CachectlOnlyAdvances := by
  intro s hnext hin
  have hx : exec .cachectl s = .next (pcUpdate s) := rfl
  rw [hx, pcUpdate_inside (newPc_none hnext) hin, ← hnext]

/-! ### The frame of the ten -/

/-- A register that is not written reads as before. -/
theorem readReg_writeReg_of_ne {r d : RegIdx} (h : r ≠ d) (v : Word) (s : State) :
    readReg r (writeReg d v s) = readReg r s := by
  rw [readReg_writeReg, if_neg fun hr => h hr.1]

/-- What the execute phase of an instruction that reaches no data leaves alone: every register but the destination, the
PC, the run state and the record, and all that the CPU does not own (10_state.md R23). -/
structure RegisterOnly (i : Instr) (s u : State) : Prop where
  regs : ∀ r, destReg i ≠ some r → readReg r u = readReg r s
  pc : u.pc = s.pc
  run : u.run = s.run
  fault : u.fault = s.fault
  bus : SameBus s u

theorem RegisterOnly.refl (i : Instr) (s : State) : RegisterOnly i s s := ⟨fun _ _ => rfl, rfl, rfl, rfl, .refl s⟩

theorem RegisterOnly.writeReg {i : Instr} {d : RegIdx} (hd : destReg i = some d) (v : Word) (s : State) :
    RegisterOnly i s (Machine.writeReg d v s) where
  regs := fun r hr => readReg_writeReg_of_ne (fun h => hr (by rw [h, hd])) v s
  pc := writeReg_pc d v s
  run := writeReg_run d v s
  fault := writeReg_fault d v s
  bus := writeReg_sameBus d v s

theorem RegisterOnly.setNext {i : Instr} {s u : State} (h : RegisterOnly i s u) (target : Word) :
    RegisterOnly i s (Machine.setNext target u) :=
  ⟨h.regs, h.pc, h.run, h.fault, h.bus⟩

/-- An instruction that reaches no data executes within `RegisterOnly` and updates the PC, or is HALT, which halts with or
without the PC update. -/
theorem exec_registerOnly {i : Instr} {s t : State} (hi : ∀ rs rt imm, i ≠ .lw rs rt imm ∧ i ≠ .sw rs rt imm)
    (h : exec i s = .next t) :
    (∃ u, RegisterOnly i s u ∧ t = pcUpdate u) ∨ (i = .halt ∧ (t = enterHalted s ∨ t = pcUpdate (enterHalted s))) := by
  have updates : ∀ {u}, RegisterOnly i s u → exec i s = .next (pcUpdate u) → ∃ u, RegisterOnly i s u ∧ t = pcUpdate u :=
    fun hu hx => ⟨_, hu, by cases h.symm.trans hx; rfl⟩
  have refl := RegisterOnly.refl i s
  cases i with
  | lw rs rt imm => exact absurd rfl (hi rs rt imm).1
  | sw rs rt imm => exact absurd rfl (hi rs rt imm).2
  | add | sub | slt | addi => exact .inl (updates (.writeReg rfl _ s) rfl)
  | j target => exact .inl (updates (refl.setNext _) rfl)
  | jal target => exact .inl (updates ((RegisterOnly.writeReg rfl _ s).setNext _) rfl)
  | beq rs rt imm =>
    refine .inl (updates ?_ rfl)
    split
    · exact refl.setNext _
    · exact refl
  | bne rs rt imm =>
    refine .inl (updates ?_ rfl)
    split
    · exact refl
    · exact refl.setNext _
  | cachectl => exact .inl (updates refl rfl)
  | halt =>
    refine .inr ⟨rfl, ?_⟩
    cases hswitch : s.cfg.haltAdvancesPc with
    | false => cases h.symm.trans (exec_halt_switch_off hswitch); exact .inl rfl
    | true => cases h.symm.trans (exec_halt_switch_on hswitch); exact .inr rfl

/-- An instruction that reaches no data leaves alone all that the CPU does not own. -/
theorem exec_sameBus {i : Instr} {s t : State} (hi : ∀ rs rt imm, i ≠ .lw rs rt imm ∧ i ≠ .sw rs rt imm)
    (h : exec i s = .next t) : SameBus s t := by
  rcases exec_registerOnly hi h with ⟨u, hu, rfl⟩ | ⟨-, rfl | rfl⟩
  · exact hu.bus.trans (pcUpdate_sameBus u)
  · rfl
  · exact SameBus.trans (t := enterHalted s) rfl (pcUpdate_sameBus _)

/-- Settles O37: `exec_registerOnly`, and what the PC update can do after it. -/
theorem registerOnlyFormsFrame : Obligations.RegisterOnlyFormsFrame := by
  intro i s t hi h
  have hbus := exec_sameBus hi h
  have hmem : t.mem = s.mem := (congrArg State.mem hbus :)
  suffices hcpu : (∀ r, destReg i ≠ some r → readReg r t = readReg r s) ∧
      ((t.run = s.run ∧ t.fault = s.fault) ∨ (i = .halt ∧ t.run = .halted ∧ t.fault = s.fault) ∨
        (t.run = .halted ∧ ∃ addr, t.fault = some { kind := .addressError, pc := s.pc, addr := addr })) from
    ⟨hcpu.1, fun x => by rw [hmem], hbus, hcpu.2⟩
  rcases exec_registerOnly hi h with ⟨u, hu, rfl⟩ | ⟨rfl, rfl | rfl⟩
  · refine ⟨fun r hr => (readReg_congr r _ u (pcUpdate_regs u)).trans (hu.regs r hr), ?_⟩
    rw [← hu.run, ← hu.fault, ← hu.pc]
    rcases pcUpdate_run_fault u with hkept | ⟨hrun, -, hfault⟩
    · exact .inl hkept
    · exact .inr (.inr ⟨hrun, _, hfault⟩)
  · exact ⟨fun _ _ => rfl, .inr (.inl ⟨rfl, rfl, rfl⟩)⟩
  · refine ⟨fun r _ => readReg_congr r _ s (pcUpdate_regs _), .inr ?_⟩
    rcases pcUpdate_run_fault (enterHalted s) with ⟨hrun, hfault⟩ | ⟨hrun, -, hfault⟩
    · exact .inl ⟨rfl, hrun, hfault⟩
    · exact .inr ⟨hrun, _, hfault⟩

end Sys2Proof.Machine
end

section
/-! PROOFS of the statements about the cache and the bus, and that no program can observe the cache (20_memory.md R71 to
R81). A cache access changes the cache's own state and, for a write, the memory, as a store without a cache would. -/

namespace Sys2Proof.Machine

/-! ### The address split -/

/-- Settles O51: the fields are quotients and remainders by the line size and the number of lines. -/
theorem addressSplitIsExact : Obligations.AddressSplitIsExact := by
  intro c hc
  have hsum := fieldBits_sum c hc
  obtain ⟨-, -, -, -, hsize⟩ := id hc
  have htag : 1 ≤ c.tagBits := by
    have hpow : 2 ^ (c.offsetBits + c.indexBits) ≤ 2 ^ 31 := by
      rwa [Nat.pow_add, ← numLines_eq_pow c hc, ← lineSize_eq_pow c hc, Nat.mul_comm, ← cacheSize_eq_mul c hc]
    have hbits := (Nat.pow_le_pow_iff_right (by decide)).mp hpow
    omega
  refine ⟨hsum, htag, (cacheSize_eq_mul c hc).symm, fun a => ?_⟩
  have htagValue : (cacheTag c a).toNat = a.toNat / 2 ^ (c.offsetBits + c.indexBits) := by
    rw [cacheTag_toNat c hc, Nat.div_div_eq_div_mul, Nat.pow_add, ← lineSize_eq_pow c hc, ← numLines_eq_pow c hc]
  refine ⟨?_, cacheIndex_lt c hc a, ?_, ?_, ?_, htagValue, ?_⟩
  · exact Nat.mod_lt _ (lineSize_eq_pow c hc ▸ Nat.two_pow_pos _)
  · rw [htagValue, Nat.div_lt_iff_lt_mul (Nat.two_pow_pos _), ← Nat.pow_add, Nat.add_comm, hsum]
    exact a.isLt
  · rw [cacheOffset, ← lineSize_eq_pow c hc]
  · rw [cacheIndex_eq c hc, ← lineSize_eq_pow c hc, ← numLines_eq_pow c hc]
  · rw [← cacheBase_eq_lineBase c hc, cacheBase_add_offset]

/-! ### The three cases of an access -/

theorem cacheRead_hit {s : State} (hen : s.cacheEnabled = true) {a : Word} (hr : Resident s a) :
    cacheRead a s = (lineWord (lineOf s a) (cacheOffset s.cfg a), countHit s) := by
  rw [cacheRead, if_neg (by simp [hen]), if_pos hr]

theorem cacheRead_miss {s : State} (hen : s.cacheEnabled = true) {a : Word} (hr : ¬Resident s a) :
    cacheRead a s =
      (lineWord (refilledLine s a) (cacheOffset s.cfg a), setLineOf a (refilledLine s a) (countMiss s)) := by
  rw [cacheRead, if_neg (by simp [hen]), if_neg hr]

theorem cacheWrite_hit {s : State} (hen : s.cacheEnabled = true) {a : Word} (hr : Resident s a) (v : Word) :
    cacheWrite a v s =
      setLineOf a (lineSetWord (lineOf s a) (cacheOffset s.cfg a) v) (countHit (storeWord a v s)) := by
  rw [cacheWrite, if_neg (by simp [hen]), if_pos hr]

theorem cacheWrite_miss {s : State} (hen : s.cacheEnabled = true) {a : Word} (hr : ¬Resident s a) (v : Word) :
    cacheWrite a v s = countMiss (storeWord a v s) := by
  rw [cacheWrite, if_neg (by simp [hen]), if_neg hr]

/-- The index of every address is that of a line (20_memory.md R71). -/
theorem State.BusInv.cacheIndex_lt_length {s : State} (hs : s.BusInv) (a : Word) :
    cacheIndex s.cfg a < s.lines.length := by
  rw [hs.lineCount]
  exact cacheIndex_lt s.cfg hs.legal.1 a

/-- The line of an address, replaced, is the new line. -/
theorem lineOf_setLineOf {s : State} {a : Word} (h : cacheIndex s.cfg a < s.lines.length) (l : CacheLine) :
    lineOf (setLineOf a l s) a = l := by
  rw [lineOf, lineAt_setLineOf]
  exact if_pos ⟨rfl, h⟩

/-- A line whose address is replaced leaves the lines of other indices alone. -/
theorem lineAt_setLineOf_of_ne {s : State} {a : Word} {i : Nat} (h : i ≠ cacheIndex s.cfg a) (l : CacheLine) :
    lineAt (setLineOf a l s) i = lineAt s i := by
  rw [lineAt_setLineOf, if_neg fun hi => h hi.1]

/-- A read of an enabled cache leaves its address resident (20_memory.md R74). -/
theorem resident_cacheRead {s : State} (hs : s.BusInv) (hen : s.cacheEnabled = true) (a : Word) :
    Resident (cacheRead a s).2 a := by
  by_cases hr : Resident s a
  · rw [cacheRead_hit hen hr]
    exact hr
  · have hline : lineOf (setLineOf a (refilledLine s a) (countMiss s)) a = refilledLine s a :=
      lineOf_setLineOf (s := countMiss s) (hs.cacheIndex_lt_length a) _
    rw [cacheRead_miss hen hr]
    exact ⟨by rw [hline]; rfl, by rw [hline]; rfl⟩

/-! ### What reads and writes answer and leave -/

/-- Settles O52: the first read leaves the address resident, and both reads answer the memory's word. -/
theorem repeatedReadHits : Obligations.RepeatedReadHits := by
  intro s a hs hen haligned hin
  have hres := resident_cacheRead hs hen a
  have hen' : (cacheRead a s).2.cacheEnabled = true := by rw [cacheRead_frame, ← hen]
  have hmem : (cacheRead a s).2.mem = s.mem := by rw [cacheRead_frame]
  refine ⟨hres, fun hr => ?_, fun hr => ?_, ?_, ?_⟩
  · rw [cacheRead_hit hen hr]
    exact ⟨rfl, rfl⟩
  · rw [cacheRead_miss hen hr]
    exact ⟨rfl, rfl⟩
  · rw [cacheRead_value _ (cacheRead_keeps_busInv s hs a hin) a haligned, cacheRead_value s hs a haligned, hmem]
  · rw [cacheRead_hit hen' hres]
    rfl

/-- The memory after a write through the cache (20_memory.md R75). -/
@[simp] theorem cacheWrite_mem (a v : Word) (s : State) : (cacheWrite a v s).mem = backWrite s.mem a.toNat v := by
  rw [cacheWrite_frame]

/-- A word written into a line is the word the line holds there (20_memory.md R75). -/
theorem lineWord_lineSetWord {l : CacheLine} {off : Nat} (h : off + 4 ≤ l.data.length) (v : Word) :
    lineWord (lineSetWord l off v) off = v := by
  simp only [lineWord, lineSetWord_getD _ _ _ _ h]
  simp

/-- Settles O53: a miss counts and stores, a hit also replaces the line by itself with the word in it. -/
theorem writesGoThroughAndAllocateNothing : Obligations.WritesGoThroughAndAllocateNothing := by
  intro s a v hs hen haligned hin
  refine ⟨by rw [cacheWrite_mem, backRead_backWrite _ _ _ hs.memWf], fun hr => ?_, fun hr => ?_⟩
  · rw [cacheWrite_miss hen hr]
    exact ⟨rfl, rfl, rfl⟩
  · have hline : lineOf (cacheWrite a v s) a = lineSetWord (lineOf s a) (cacheOffset s.cfg a) v := by
      rw [cacheWrite_hit hen hr]
      exact lineOf_setLineOf (s := countHit (storeWord a v s)) (hs.cacheIndex_lt_length a) _
    have hcfg : (cacheWrite a v s).cfg = s.cfg := by rw [cacheWrite_frame]
    refine ⟨⟨by rw [hline]; exact hr.1, by rw [hline, hcfg]; exact hr.2⟩, ?_, ?_, ?_, fun i hi => ?_⟩
    · rw [cacheWrite_hit hen hr]
      rfl
    · rw [cacheWrite_hit hen hr]
      rfl
    · rw [hline, lineWord_lineSetWord]
      rw [lineOf_data_length hs]
      exact offset_add_four_le s.cfg hs.legal.1 a haligned
    · rw [cacheWrite_hit hen hr]
      exact lineAt_setLineOf_of_ne (s := countHit (storeWord a v s)) hi _

/-- Settles O54: the value of a read is `cacheRead_value`, before and after the write. -/
theorem cacheNeverChangesMemorySemantics : Obligations.CacheNeverChangesMemorySemantics := by
  intro s a v hs haligned hin
  have hread := memRead_of_word hs a haligned hin
  have hwrite := memWrite_of_word hs a v haligned hin
  obtain ⟨-, -, -, -, -, -, hmem, -⟩ := memRead_frame hread
  obtain ⟨hcfg, -⟩ := memWrite_frame hwrite
  have hinv := memWrite_keeps_busInv hs hwrite
  have hword : backRead (cacheWrite a v (countMemWrite s)).mem a.toNat = v := by
    rw [cacheWrite_mem]
    exact backRead_backWrite _ _ _ hs.memWf
  refine ⟨⟨_, hread, hmem, memRead_keeps_busInv hs hread⟩, _, hwrite, hword, fun x hx => ?_, hinv, ?_⟩
  · rw [cacheWrite_mem]
    exact read_backWrite_outside _ _ _ _ hs.memWf hx
  · have hagain := memRead_of_word hinv a haligned (by rwa [hcfg])
    rw [hword] at hagain
    exact ⟨_, hagain⟩

/-! ### The bus, by where the address leads -/

theorem memRead_of_bad {s : State} {a : Word} {k : ErrorKind} (h : busRoute s.cfg a = .bad k) :
    memRead a s = .error { kind := k, addr := a } := by
  unfold memRead
  rw [h]

theorem memRead_of_io {s : State} {a : Word} {r : IoReg} (h : busRoute s.cfg a = .io r) :
    memRead a s = .ok (s.io.get r, countIoRead s) := by
  unfold memRead
  rw [h]

theorem memWrite_of_bad {s : State} {a : Word} {k : ErrorKind} (h : busRoute s.cfg a = .bad k) (v : Word) :
    memWrite a v s = .error { kind := k, addr := a } := by
  unfold memWrite
  rw [h]

theorem memWrite_of_io {s : State} {a : Word} {r : IoReg} (h : busRoute s.cfg a = .io r) (v : Word) :
    memWrite a v s = .ok (ioWrite r v (countIoWrite s)) := by
  unfold memWrite
  rw [h]

theorem memWrite_of_memory {s : State} {a : Word} (h : busRoute s.cfg a = .memory) (v : Word) :
    memWrite a v s = .ok (cacheWrite a v (countMemWrite s)) := by
  unfold memWrite
  rw [h]

/-- Under the bus invariant a read that leads to memory answers the memory's word (20_memory.md R81). -/
theorem memRead_of_memory {s : State} (hs : s.BusInv) {a : Word} (h : busRoute s.cfg a = .memory) :
    memRead a s = .ok (backRead s.mem a.toNat, (cacheRead a (countMemRead s)).2) := by
  obtain ⟨haligned, hin, -⟩ := busRoute_memory _ _ h
  exact memRead_of_word hs a haligned (by omega)

/-! ### LW and SW, by what the bus answers -/

section
variable {rs rt : RegIdx} {imm : Word} {s u : State}

theorem exec_lw_of_ok {v : Word} (h : memRead (effectiveAddress rs imm s) s = .ok (v, u)) :
    exec (.lw rs rt imm) s = .next (pcUpdate (writeReg rt v u)) := by
  simp only [exec, execLw, h]

theorem exec_lw_of_error {e : Raised} (h : memRead (effectiveAddress rs imm s) s = .error e) :
    exec (.lw rs rt imm) s = .next (takeFault e s) := by
  simp only [exec, execLw, h]

theorem exec_sw_of_ok (h : memWrite (effectiveAddress rs imm s) (readReg rt s) s = .ok u) :
    exec (.sw rs rt imm) s = .next (pcUpdate u) := by
  simp only [exec, execSw, h]

theorem exec_sw_of_error {e : Raised} (h : memWrite (effectiveAddress rs imm s) (readReg rt s) s = .error e) :
    exec (.sw rs rt imm) s = .next (takeFault e s) := by
  simp only [exec, execSw, h]

end

/-! ### Noninterference -/

/-- The states that differ from `s` in the cache alone are `s` with some cache. -/
theorem sameButCache_iff {s t : State} : SameButCache s t ↔ ∃ c, t = withCacheOf c s :=
  ⟨fun h => ⟨t, h.symm⟩, by rintro ⟨c, rfl⟩; rfl⟩

theorem SameButCache.symm {s t : State} (h : SameButCache s t) : SameButCache t s := by
  obtain ⟨c, rfl⟩ := sameButCache_iff.mp h
  rfl

theorem SameButCache.trans {s t u : State} (h : SameButCache s t) (h' : SameButCache t u) : SameButCache s u := by
  obtain ⟨c, rfl⟩ := sameButCache_iff.mp h
  obtain ⟨c', rfl⟩ := sameButCache_iff.mp h'
  rfl

/-- An operation that commutes with exchanging the cache keeps `SameButCache`. -/
theorem SameButCache.map {s t : State} (h : SameButCache s t) {f : State → State}
    (hf : ∀ c, f (withCacheOf c s) = withCacheOf c (f s)) : SameButCache (f s) (f t) := by
  obtain ⟨c, rfl⟩ := sameButCache_iff.mp h
  exact sameButCache_iff.mpr ⟨c, hf c⟩

theorem writeReg_withCacheOf (c : State) (d : RegIdx) (v : Word) (s : State) :
    writeReg d v (withCacheOf c s) = withCacheOf c (writeReg d v s) := by
  unfold writeReg
  split <;> rfl

theorem setNext_withCacheOf (c : State) (target : Word) (s : State) :
    setNext target (withCacheOf c s) = withCacheOf c (setNext target s) := rfl

theorem takeFault_withCacheOf (c : State) (e : Raised) (s : State) :
    takeFault e (withCacheOf c s) = withCacheOf c (takeFault e s) := rfl

theorem pcUpdate_withCacheOf (c s : State) : pcUpdate (withCacheOf c s) = withCacheOf c (pcUpdate s) := by
  rcases pcUpdate_cases s with ⟨hin, hp⟩ | ⟨hout, hp⟩ <;> rw [hp]
  · exact pcUpdate_inside rfl hin
  · exact pcUpdate_outside rfl hout

theorem ioWrite_withCacheOf (c : State) (r : IoReg) (v : Word) (s : State) :
    ioWrite r v (withCacheOf c s) = withCacheOf c (ioWrite r v s) := by
  cases r <;> rfl

/-- A read through the cache changes the cache's own state alone (20_memory.md R74). -/
theorem cacheRead_sameButCache (a : Word) (s : State) : SameButCache s (cacheRead a s).2 := by
  rw [cacheRead_frame]
  rfl

/-- A write through the cache is a store to memory, but for the cache's own state (20_memory.md R75). -/
theorem cacheWrite_sameButCache (a v : Word) (s : State) : SameButCache (storeWord a v s) (cacheWrite a v s) := by
  rw [cacheWrite_frame]
  rfl

/-- A read of the bus answers the same and leaves the same but for the cache (20_memory.md R81). -/
theorem memRead_sameButCache {s t : State} (hs : s.BusInv) (ht : t.BusInv) (h : SameButCache s t) (a : Word) :
    (∃ e, memRead a s = .error e ∧ memRead a t = .error e) ∨
      ∃ v s' t', memRead a s = .ok (v, s') ∧ memRead a t = .ok (v, t') ∧ SameButCache s' t' := by
  obtain ⟨c, rfl⟩ := sameButCache_iff.mp h
  cases hr : busRoute s.cfg a with
  | bad k => exact .inl ⟨_, memRead_of_bad hr, memRead_of_bad hr⟩
  | io r => exact .inr ⟨_, _, _, memRead_of_io hr, memRead_of_io hr, rfl⟩
  | memory =>
    have hcounted : SameButCache (countMemRead s) (countMemRead (withCacheOf c s)) := rfl
    exact .inr ⟨_, _, _, memRead_of_memory hs hr, memRead_of_memory ht hr,
      (cacheRead_sameButCache a _).symm.trans (hcounted.trans (cacheRead_sameButCache a _))⟩

/-- A write of the bus raises the same or leaves the same but for the cache (20_memory.md R81). -/
theorem memWrite_sameButCache {s t : State} (h : SameButCache s t) (a v : Word) :
    (∃ e, memWrite a v s = .error e ∧ memWrite a v t = .error e) ∨
      ∃ s' t', memWrite a v s = .ok s' ∧ memWrite a v t = .ok t' ∧ SameButCache s' t' := by
  obtain ⟨c, rfl⟩ := sameButCache_iff.mp h
  cases hr : busRoute s.cfg a with
  | bad k => exact .inl ⟨_, memWrite_of_bad hr v, memWrite_of_bad (s := withCacheOf c s) hr v⟩
  | io r =>
    refine .inr ⟨_, _, memWrite_of_io hr v, memWrite_of_io (s := withCacheOf c s) hr v, ?_⟩
    exact sameButCache_iff.mpr ⟨c, ioWrite_withCacheOf c r v (countIoWrite s)⟩
  | memory =>
    have hstored : SameButCache (storeWord a v (countMemWrite s)) (storeWord a v (countMemWrite (withCacheOf c s))) := rfl
    exact .inr ⟨_, _, memWrite_of_memory hr v, memWrite_of_memory (s := withCacheOf c s) hr v,
      (cacheWrite_sameButCache a v _).symm.trans (hstored.trans (cacheWrite_sameButCache a v _))⟩

/-- An instruction that reaches no data commutes with exchanging the cache. -/
theorem exec_withCacheOf {i : Instr} (hi : ∀ rs rt imm, i ≠ .lw rs rt imm ∧ i ≠ .sw rs rt imm) (c : State)
    {s s' : State} (h : exec i s = .next s') : exec i (withCacheOf c s) = .next (withCacheOf c s') := by
  cases i with
  | lw rs rt imm => exact absurd rfl (hi rs rt imm).1
  | sw rs rt imm => exact absurd rfl (hi rs rt imm).2
  | add | sub | slt | addi =>
    cases h
    rw [← pcUpdate_withCacheOf, ← writeReg_withCacheOf]
    rfl
  | jal =>
    cases h
    rw [← pcUpdate_withCacheOf, ← setNext_withCacheOf, ← writeReg_withCacheOf]
    rfl
  | j | cachectl =>
    cases h
    rw [← pcUpdate_withCacheOf]
    rfl
  | beq | bne =>
    cases h
    rw [← pcUpdate_withCacheOf, apply_ite (withCacheOf c)]
    rfl
  | halt =>
    cases h
    rw [apply_ite (withCacheOf c), ← pcUpdate_withCacheOf]
    rfl

/-- The meaning of every instruction keeps two states that differ in the cache alone so (20_memory.md R81). -/
theorem exec_sameButCache {i : Instr} {s t s' t' : State} (hs : s.BusInv) (ht : t.BusInv) (h : SameButCache s t)
    (hx : exec i s = .next s') (hx' : exec i t = .next t') : SameButCache s' t' := by
  have hread : ∀ r, readReg r t = readReg r s := fun r => by rw [← h]; rfl
  cases i with
  | lw rs rt imm =>
    have haddr : effectiveAddress rs imm t = effectiveAddress rs imm s := by rw [effectiveAddress, hread]; rfl
    rcases memRead_sameButCache hs ht h (effectiveAddress rs imm s) with ⟨e, he, he'⟩ | ⟨v, u, u', hu, hu', huu⟩
    · rw [← haddr] at he'
      cases hx.symm.trans (exec_lw_of_error he)
      cases hx'.symm.trans (exec_lw_of_error he')
      exact h.map fun c => takeFault_withCacheOf c e s
    · rw [← haddr] at hu'
      cases hx.symm.trans (exec_lw_of_ok hu)
      cases hx'.symm.trans (exec_lw_of_ok hu')
      exact huu.map (f := fun x => pcUpdate (writeReg rt v x)) fun c => by rw [writeReg_withCacheOf, pcUpdate_withCacheOf]
  | sw rs rt imm =>
    have haddr : effectiveAddress rs imm t = effectiveAddress rs imm s := by rw [effectiveAddress, hread]; rfl
    rcases memWrite_sameButCache h (effectiveAddress rs imm s) (readReg rt s) with ⟨e, he, he'⟩ | ⟨u, u', hu, hu', huu⟩
    · rw [← haddr, ← hread rt] at he'
      cases hx.symm.trans (exec_sw_of_error he)
      cases hx'.symm.trans (exec_sw_of_error he')
      exact h.map fun c => takeFault_withCacheOf c e s
    · rw [← haddr, ← hread rt] at hu'
      cases hx.symm.trans (exec_sw_of_ok hu)
      cases hx'.symm.trans (exec_sw_of_ok hu')
      exact huu.map fun c => pcUpdate_withCacheOf c u
  | _ =>
    obtain ⟨c, rfl⟩ := sameButCache_iff.mp h
    cases hx'.symm.trans (exec_withCacheOf (by simp) c hx)
    rfl

/-- The fetch keeps two states that differ in the cache alone so. -/
theorem afterFetch_sameButCache {s t : State} (h : SameButCache s t) : SameButCache (afterFetch s) (afterFetch t) := by
  obtain ⟨c, rfl⟩ := sameButCache_iff.mp h
  have hcounted : SameButCache (countMemRead s) (countMemRead (withCacheOf c s)) := rfl
  exact (cacheRead_sameButCache s.pc _).symm.trans (hcounted.trans (cacheRead_sameButCache s.pc _))

/-- Settles O59: both machines run the same word of memory, on states that differ in the cache alone. -/
theorem programsCannotObserveTheCache : Obligations.ProgramsCannotObserveTheCache := by
  intro s t s' t' hs ht h hstep hstep'
  have hmem : t.mem = s.mem := by rw [← h]; rfl
  have hpc : t.pc = s.pc := by rw [← h]; rfl
  have hrunEq : t.run = s.run := by rw [← h]; rfl
  have hfetch := afterFetch_sameButCache h
  cases hrun : s.run with
  | halted =>
    rwa [← afterStep_eq hstep, ← afterStep_eq hstep', afterStep_of_halted hrun, afterStep_of_halted (hrunEq.trans hrun)]
  | running =>
    have hrun' := hrunEq.trans hrun
    cases hd : decode (backRead s.mem s.pc.toNat) with
    | error d =>
      cases hstep.symm.trans (step_eq_decodeFault hs hrun hd)
      cases hstep'.symm.trans (step_eq_decodeFault ht hrun' (by rw [hmem, hpc, hd]))
      exact hfetch.map fun c => rfl
    | ok i =>
      rw [step_eq_exec hs hrun hd] at hstep
      rw [step_eq_exec ht hrun' (by rw [hmem, hpc, hd])] at hstep'
      exact exec_sameButCache (afterFetch_inv hs).toBusInv (afterFetch_inv ht).toBusInv hfetch hstep hstep'

end Sys2Proof.Machine
end

section
/-! PROOFS of the statements about LW and SW (42_load_store.md R170 to R172; 20_memory.md R60 to R63; 60_exceptions.md R202,
R203, R207, R215 to R218). Each is what the bus answers, followed by the PC update. -/

namespace Sys2Proof.Machine

/-! ### A successful access, in and off the end of memory -/

section
variable {rs rt : RegIdx} {imm : Word} {s u : State}

/-- An LW whose read succeeds, before the last word of memory: the PC four on, the word in its register unless that is
register 0, and for the rest what the read left (42_load_store.md R171). -/
theorem exec_lw_inside {v : Word} (h : memRead (effectiveAddress rs imm s) s = .ok (v, u)) (hnext : s.next = none)
    (hin : (s.pc + 4#32).toNat < s.cfg.memorySize) :
    ∃ t, exec (.lw rs rt imm) s = .next t ∧ t.pc = s.pc + 4#32 ∧
      (∀ r, readReg r t = if r = rt ∧ rt ≠ 0#5 then v else readReg r s) ∧
      { t with regs := s.regs, pc := s.pc } = u := by
  have hcpu := sameCpu_of_memRead h
  obtain ⟨hpc, hregs, hrest⟩ := writeReg_then_pcUpdate (hcpu.next.trans hnext) (by rwa [hcpu.pc, hcpu.cfg]) rt v
  refine ⟨_, exec_lw_of_ok h, by rw [hpc, hcpu.pc], fun r => ?_, ?_⟩
  · rw [hregs, readReg_congr r u s hcpu.regs]
  · rw [← hcpu.regs, ← hcpu.pc]
    exact hrest

/-- An SW whose write succeeds, before the last word of memory (42_load_store.md R172). -/
theorem exec_sw_inside (h : memWrite (effectiveAddress rs imm s) (readReg rt s) s = .ok u) (hnext : s.next = none)
    (hin : (s.pc + 4#32).toNat < s.cfg.memorySize) :
    exec (.sw rs rt imm) s = .next { u with pc := s.pc + 4#32 } := by
  have hcpu := sameCpu_of_memWrite h
  have hnext' := hcpu.next.trans hnext
  have hnew : newPc u = s.pc + 4#32 := by rw [newPc_none hnext', hcpu.pc]
  rw [exec_sw_of_ok h, pcUpdate_inside hnew (by rwa [hcpu.cfg]), ← hnext']

end

/-- Settles O27: the register write and the PC update, or the PC update alone, on what the access left. -/
theorem lwAndSwAtTheEndOfMemoryFaultAfterTheAccess : Obligations.LwAndSwAtTheEndOfMemoryFaultAfterTheAccess := by
  intro rs rt imm s u hnext hout
  refine ⟨fun v h => ?_, fun h => ?_⟩
  · have hcpu := sameCpu_of_memRead h
    obtain ⟨hregs, hrun, hfault, hrest⟩ := writeReg_then_pcUpdate_outside (hcpu.next.trans hnext)
      (by rwa [hcpu.pc, hcpu.cfg]) rt v
    refine ⟨_, exec_lw_of_ok h, fun r => ?_, hrun, by rw [hfault, hcpu.pc], ?_⟩
    · rw [hregs, readReg_congr r u s hcpu.regs]
    · rw [← hcpu.regs, ← hcpu.run, ← hcpu.fault]
      exact hrest
  · have hcpu := sameCpu_of_memWrite h
    have hnext' := hcpu.next.trans hnext
    have hnew : newPc u = s.pc + 4#32 := by rw [newPc_none hnext', hcpu.pc]
    rw [exec_sw_of_ok h, pcUpdate_outside hnew (by rwa [hcpu.cfg]), takeFault, ← hnext', hcpu.pc]

/-! ### Memory -/

/-- Settles O22: `exec_lw_inside` on the read of memory. -/
theorem lwFromMemoryLoadsTheWord : Obligations.LwFromMemoryLoadsTheWord := by
  intro rs rt imm s hs hnext hin haligned hinside
  obtain ⟨t, hx, hpc, hregs, hrest⟩ := exec_lw_inside (rt := rt)
    (memRead_of_word hs (effectiveAddress rs imm s) haligned hinside) hnext hin
  have hframe := memoryRead_frame (effectiveAddress rs imm s) s
  have hreads := cacheRead_memReads (effectiveAddress rs imm s) (countMemRead s)
  obtain ⟨henabled, hdisabled⟩ := cacheRead_counts (effectiveAddress rs imm s) (countMemRead s)
  rw [← hrest] at hframe hreads henabled hdisabled
  refine ⟨t, hx, hpc, hregs, hreads, henabled, fun hdis => ?_, hframe⟩
  have hsame := hdisabled hdis
  exact ⟨(congrArg State.lines hsame :), (congrArg State.hits hsame :), (congrArg State.misses hsame :)⟩

/-- Settles O25: `exec_sw_inside` on the write to memory. -/
theorem swToMemoryStoresTheWord : Obligations.SwToMemoryStoresTheWord := by
  intro rs rt imm s hs hnext hin haligned hinside
  have hwrite := memWrite_of_word hs (effectiveAddress rs imm s) (readReg rt s) haligned hinside
  have hcpu := sameCpu_of_memWrite hwrite
  have hframe := cacheWrite_frame (countMemWrite s) (effectiveAddress rs imm s) (readReg rt s)
  have hmem := cacheWrite_mem (effectiveAddress rs imm s) (readReg rt s) (countMemWrite s)
  have hinv := memWrite_keeps_busInv hs hwrite
  obtain ⟨henabled, hdisabled⟩ := cacheWrite_counts (effectiveAddress rs imm s) (readReg rt s) (countMemWrite s)
  refine ⟨_, exec_sw_inside hwrite hnext hin, rfl, ?_, fun x hx => ?_, ?_, hinv.congr rfl rfl rfl rfl, henabled,
    fun hdis => ?_, ?_⟩
  · show backRead (cacheWrite _ _ _).mem _ = _
    rw [hmem]
    exact backRead_backWrite _ _ _ hs.memWf
  · show Memory.read (cacheWrite _ _ _).mem x = _
    rw [hmem]
    exact read_backWrite_outside _ _ _ _ hs.memWf hx
  · rw [hframe]
    rfl
  · rw [hdisabled hdis]
    exact ⟨rfl, rfl, rfl⟩
  · rw [hframe]
    rfl

/-- Settles O28: whatever the PC update does, memory holds the word, and the fetch answers memory's word. -/
theorem storeIsSeenByTheNextFetch : Obligations.StoreIsSeenByTheNextFetch := by
  intro rs rt imm s t hs haligned hinside hx
  obtain ⟨-, u, hwrite, hword, -, hinv, -⟩ :=
    cacheNeverChangesMemorySemantics s (effectiveAddress rs imm s) (readReg rt s) hs haligned hinside
  cases hx.symm.trans (exec_sw_of_ok hwrite)
  have hcfg : (pcUpdate u).cfg = s.cfg := (pcUpdate_cfg u).trans (sameCpu_of_memWrite hwrite).cfg
  have hfetchInv : State.BusInv { pcUpdate u with pc := effectiveAddress rs imm s } :=
    hinv.congr (pcUpdate_cfg u) (pcUpdate_mem u) (pcUpdate_lines u) (pcUpdate_cacheEnabled u)
  have hread := memRead_of_word hfetchInv (effectiveAddress rs imm s) haligned (by rwa [hcfg])
  obtain ⟨-, hin4, -⟩ := busRoute_memory _ _ (busRoute_of_word s.cfg hs.legal _ haligned hinside)
  rw [pcUpdate_mem, hword] at hread
  exact ⟨_, (fetch_of_good_pc haligned (by rwa [hcfg])).trans hread⟩

/-! ### I/O -/

theorem ioRegAt_input {c : Config} {a : Word} (h : a.toNat = c.ioBase) : ioRegAt c a = some .input := by
  simp [ioRegAt, h]

theorem ioRegAt_output {c : Config} {a : Word} (h : a.toNat = c.ioBase + 4) : ioRegAt c a = some .output := by
  simp [ioRegAt, h]

theorem ioRegAt_status {c : Config} {a : Word} (h : a.toNat = c.ioBase + 8) : ioRegAt c a = some .status := by
  simp [ioRegAt, h]

/-- Settles O23: `exec_lw_inside` on the read of the register at the address. -/
theorem lwFromIoReadsTheRegister : Obligations.LwFromIoReadsTheRegister := by
  intro rs rt imm s off v hlegal hnext hin haddr hreg
  obtain ⟨r, hr, rfl⟩ : ∃ r, ioRegAt s.cfg (effectiveAddress rs imm s) = some r ∧ v = s.io.get r := by
    rcases hreg with ⟨rfl, rfl⟩ | ⟨rfl, rfl⟩ | ⟨rfl, rfl⟩
    · exact ⟨.input, ioRegAt_input haddr, rfl⟩
    · exact ⟨.output, ioRegAt_output haddr, rfl⟩
    · exact ⟨.status, ioRegAt_status haddr, rfl⟩
  obtain ⟨t, hx, hpc, hregs, hrest⟩ := exec_lw_inside (rt := rt)
    (memRead_of_io (busRoute_of_ioReg s.cfg hlegal _ r hr)) hnext hin
  exact ⟨t, hx, hpc, hregs, (congrArg State.ioReads hrest :),
    congrArg (fun x : State => { x with ioReads := s.ioReads }) hrest⟩

/-- Settles O26: `exec_sw_inside` on the write of each register. -/
theorem swToIoWritesTheRegister : Obligations.SwToIoWritesTheRegister := by
  intro rs rt imm s hlegal hnext hin
  have hstore : ∀ r, ioRegAt s.cfg (effectiveAddress rs imm s) = some r →
      exec (.sw rs rt imm) s = .next { ioWrite r (readReg rt s) (countIoWrite s) with pc := s.pc + 4#32 } :=
    fun r hr => exec_sw_inside (memWrite_of_io (busRoute_of_ioReg s.cfg hlegal _ r hr) _) hnext hin
  exact ⟨fun h => hstore _ (ioRegAt_input h), fun h => hstore _ (ioRegAt_output h), fun h => hstore _ (ioRegAt_status h)⟩

/-! ### Bad addresses -/

/-- Where the bus raises, in the order of its checks (20_memory.md R60 to R62). -/
theorem busRoute_of_bad {c : Config} (hc : c.Legal) {a : Word} {k : ErrorKind}
    (h : (a.toNat % 4 ≠ 0 ∧ k = .addressError) ∨
      (a.toNat % 4 = 0 ∧ c.memorySize ≤ a.toNat ∧ a.toNat < c.ioBase ∧ k = .addressError) ∨
      (a.toNat % 4 = 0 ∧ c.ioBase ≤ a.toNat ∧ a.toNat ∉ [c.ioBase, c.ioBase + 4, c.ioBase + 8] ∧
        k = .ioAddressError)) : busRoute c a = .bad k := by
  unfold busRoute
  rcases h with ⟨hmis, rfl⟩ | ⟨haligned, hgap, hbelow, rfl⟩ | ⟨haligned, habove, hnone, rfl⟩
  · rw [if_pos hmis]
  · rw [if_neg (by omega), if_neg (by omega), if_pos (by omega)]
  · have hreg : ioRegAt c a = none := by simp_all [ioRegAt]
    rw [if_neg (by omega), if_pos habove, hreg]

/-- Settles O24: the bus raises, for a read as for a write, and the fault is taken on the state before. -/
theorem lwAndSwFaultOnBadAddresses : Obligations.LwAndSwFaultOnBadAddresses := by
  intro rs rt imm s i k hlegal hi hbad
  have hroute := busRoute_of_bad hlegal hbad
  rcases hi with rfl | rfl
  · exact exec_lw_of_error (memRead_of_bad hroute)
  · exact exec_sw_of_error (memWrite_of_bad hroute _)

/-! ### Frames -/

section
variable {rs rt : RegIdx} {imm : Word} {s t : State}

theorem exec_lw_cases (h : exec (.lw rs rt imm) s = .next t) :
    (∃ v u, memRead (effectiveAddress rs imm s) s = .ok (v, u) ∧ t = pcUpdate (writeReg rt v u)) ∨
      ∃ e, memRead (effectiveAddress rs imm s) s = .error e ∧ t = takeFault e s := by
  cases hr : memRead (effectiveAddress rs imm s) s with
  | ok p => exact .inl ⟨p.1, p.2, rfl, by cases h.symm.trans (exec_lw_of_ok hr); rfl⟩
  | error e => exact .inr ⟨e, rfl, by cases h.symm.trans (exec_lw_of_error hr); rfl⟩

theorem exec_sw_cases (h : exec (.sw rs rt imm) s = .next t) :
    (∃ u, memWrite (effectiveAddress rs imm s) (readReg rt s) s = .ok u ∧ t = pcUpdate u) ∨
      ∃ e, memWrite (effectiveAddress rs imm s) (readReg rt s) s = .error e ∧ t = takeFault e s := by
  cases hw : memWrite (effectiveAddress rs imm s) (readReg rt s) s with
  | ok u => exact .inl ⟨u, rfl, by cases h.symm.trans (exec_sw_of_ok hw); rfl⟩
  | error e => exact .inr ⟨e, rfl, by cases h.symm.trans (exec_sw_of_error hw); rfl⟩

end

/-- The PC update after an access keeps the run state and the record, or faults at the PC of the instruction. -/
theorem pcUpdate_run_fault_after {s u : State} (hpc : u.pc = s.pc) (hrun : u.run = s.run) (hfault : u.fault = s.fault) :
    ((pcUpdate u).run = s.run ∧ (pcUpdate u).fault = s.fault) ∨
      ((pcUpdate u).run = .halted ∧ (pcUpdate u).pc = s.pc ∧
        ∃ k addr, (pcUpdate u).fault = some { kind := k, pc := s.pc, addr := addr }) := by
  rw [← hpc, ← hrun, ← hfault]
  rcases pcUpdate_run_fault u with hkept | ⟨hhalted, hkept, hrecord⟩
  · exact .inl hkept
  · exact .inr ⟨hhalted, hkept, _, _, hrecord⟩

/-- Settles O38: the read keeps what `memRead_frame` says, and the register write and the PC update keep the rest. -/
theorem lwFrame : Obligations.LwFrame := by
  intro rs rt imm s t h
  rcases exec_lw_cases h with ⟨v, u, hr, rfl⟩ | ⟨e, -, rfl⟩
  · obtain ⟨hcfg, hregs, hpc, -, hrun, hfault, hmem, hio, hmemWrites, hioWrites, henabled, hout, hcompletion⟩ :=
      memRead_frame hr
    refine ⟨fun r hne => ?_, fun x => by simp [hmem], by simp [hcfg], by simp [hio], by simp [hout],
      by simp [hcompletion], by simp [hmemWrites], by simp [hioWrites], by simp [henabled], ?_⟩
    · rw [readReg_congr r _ (writeReg rt v u) (pcUpdate_regs _), readReg_writeReg_of_ne hne, readReg_congr r u s hregs]
    · exact pcUpdate_run_fault_after (by simp [hpc]) (by simp [hrun]) (by simp [hfault])
  · exact ⟨fun _ _ => rfl, fun _ => rfl, rfl, rfl, rfl, rfl, rfl, rfl, rfl, .inr ⟨rfl, rfl, _, _, rfl⟩⟩

/-- What a write of the bus does to memory and to the I/O side: the word of memory it names, or a registered I/O register
(20_memory.md R61). -/
theorem memWrite_effect {a v : Word} {s u : State} (h : memWrite a v s = .ok u) :
    (busRoute s.cfg a = .memory ∧ u.mem = backWrite s.mem a.toNat v ∧ u.io = s.io ∧ u.outLog = s.outLog ∧
        u.completion = s.completion) ∨
      (∃ r, busRoute s.cfg a = .io r) ∧ u.mem = s.mem := by
  rcases memWrite_ok h with ⟨hr, rfl⟩ | ⟨r, hr, rfl⟩
  · rw [cacheWrite_frame]
    exact .inl ⟨hr, rfl, rfl, rfl, rfl⟩
  · exact .inr ⟨⟨r, hr⟩, by simp⟩

/-- Settles O39: a write to memory leaves the I/O side and every other byte, one to I/O leaves memory. -/
theorem swFrame : Obligations.SwFrame := by
  intro rs rt imm s t hwf h
  rcases exec_sw_cases h with ⟨u, hw, rfl⟩ | ⟨e, -, rfl⟩
  · obtain ⟨hcfg, hregs, hpc, -, hrun, hfault, hmemReads, hioReads, henabled⟩ := memWrite_frame hw
    refine ⟨fun r => readReg_congr r _ s (by simp [hregs]), ?_, by simp [hcfg], by simp [hregs], by simp [hmemReads],
      by simp [hioReads], by simp [henabled], pcUpdate_run_fault_after hpc hrun hfault⟩
    rintro a rfl
    rw [pcUpdate_mem, pcUpdate_io, pcUpdate_outLog, pcUpdate_completion]
    rcases memWrite_effect hw with ⟨hroute, hmem, hside⟩ | ⟨⟨r, hroute⟩, hmem⟩
    · obtain ⟨haligned, hinside, hbelow⟩ := busRoute_memory _ _ hroute
      rw [hmem]
      exact ⟨fun x hx => read_backWrite_outside _ _ _ _ hwf hx, fun hbad => by omega, fun _ => hside⟩
    · obtain ⟨-, habove, -⟩ := busRoute_io _ _ _ hroute
      exact ⟨fun x _ => by rw [hmem], fun _ => hmem, fun hbelow => by omega⟩
  · exact ⟨fun _ => rfl, fun _ _ => ⟨fun _ _ => rfl, fun _ => rfl, fun _ => ⟨rfl, rfl, rfl⟩⟩, rfl, rfl, rfl, rfl, rfl,
      .inr ⟨rfl, rfl, _, _, rfl⟩⟩

/-! ### Only SW writes -/

/-- An instruction that is not SW leaves memory, the I/O side and the write counters (10_state.md R34). -/
theorem exec_keeps_memory_and_io {i : Instr} {s t : State} (hi : ∀ rs rt imm, i ≠ .sw rs rt imm) (h : exec i s = .next t) :
    t.mem = s.mem ∧ t.io = s.io ∧ t.outLog = s.outLog ∧ t.completion = s.completion ∧ t.memWrites = s.memWrites ∧
      t.ioWrites = s.ioWrites := by
  by_cases hlw : ∃ rs rt imm, i = .lw rs rt imm
  · obtain ⟨rs, rt, imm, rfl⟩ := hlw
    rcases exec_lw_cases h with ⟨v, u, hr, rfl⟩ | ⟨e, -, rfl⟩
    · obtain ⟨-, -, -, -, -, -, hmem, hio, hmemWrites, hioWrites, -, hout, hcompletion⟩ := memRead_frame hr
      simp [hmem, hio, hmemWrites, hioWrites, hout, hcompletion]
    · exact ⟨rfl, rfl, rfl, rfl, rfl, rfl⟩
  · have hbus := exec_sameBus (fun rs rt imm => ⟨fun hx => hlw ⟨rs, rt, imm, hx⟩, hi rs rt imm⟩) h
    exact ⟨(congrArg State.mem hbus :), (congrArg State.io hbus :), (congrArg State.outLog hbus :),
      (congrArg State.completion hbus :), (congrArg State.memWrites hbus :), (congrArg State.ioWrites hbus :)⟩

/-- Settles O40: the fetch, the decode fault and every other instruction write nothing. -/
theorem onlySwWritesMemoryOrIo : Obligations.OnlySwWritesMemoryOrIo := by
  intro s t hs h
  cases hrun : s.run with
  | halted =>
    rw [← afterStep_eq h, afterStep_of_halted hrun]
    exact .inr ⟨rfl, rfl, rfl, rfl, rfl, rfl⟩
  | running =>
    obtain ⟨-, -, -, -, -, -, hmem, hio, hmemWrites, hioWrites, -, hout, hcompletion⟩ :=
      memRead_frame (memRead_of_word hs.toBusInv s.pc hs.pcAligned hs.pcInBounds)
    cases hd : decode (backRead s.mem s.pc.toNat) with
    | error d =>
      cases h.symm.trans (step_eq_decodeFault hs hrun hd)
      exact .inr ⟨hmem, hio, hout, hcompletion, hmemWrites, hioWrites⟩
    | ok i =>
      by_cases hi : ∃ rs rt imm, i = .sw rs rt imm
      · obtain ⟨rs, rt, imm, rfl⟩ := hi
        exact .inl ⟨rfl, rs, rt, imm, rfl⟩
      · rw [step_eq_exec hs hrun hd] at h
        obtain ⟨hmem', hio', hout', hcompletion', hmemWrites', hioWrites'⟩ :=
          exec_keeps_memory_and_io (fun rs rt imm hx => hi ⟨rs, rt, imm, hx⟩) h
        exact .inr ⟨hmem'.trans hmem, hio'.trans hio, hout'.trans hout, hcompletion'.trans hcompletion,
          hmemWrites'.trans hmemWrites, hioWrites'.trans hioWrites⟩

end Sys2Proof.Machine
end

section
/-! PROOFS of the statements about machine build, the resetting operations, the two loads and the counters (10_state.md R36,
R41, R42, R45; 20_memory.md R79, R90 to R93; 60_exceptions.md R204, R223). -/

namespace Sys2Proof.Machine

/-! ### Build, CPU reset, Clear -/

/-- The registers after CPU reset, read through `readReg` (10_state.md R42). -/
theorem readReg_of_resetRegs {s : State} (h : s.regs = resetRegs) (r : RegIdx) :
    readReg r s = if r = 29#5 then 0x7FFFFFFF#32 else 0#32 := by
  have hreset : ∀ r, readReg r State.reset = if r = 29#5 then 0x7FFFFFFF#32 else 0#32 := by decide
  rw [readReg_congr r s State.reset h, hreset]

theorem hitRate_of_no_access {s : State} (h : s.hits + s.misses = 0) : hitRate s = 0 := if_pos h

/-- Statistics before any request. -/
theorem getStats_of_no_request {s : State} (hhits : s.hits = 0) (hmisses : s.misses = 0) (hmemReads : s.memReads = 0)
    (hmemWrites : s.memWrites = 0) (hioReads : s.ioReads = 0) (hioWrites : s.ioWrites = 0) :
    getStats s = ⟨0, 0, 0, 0, 0, 0, 0⟩ := by
  have hrate : hitRate s = 0 := hitRate_of_no_access (by rw [hhits, hmisses])
  simp [getStats, *]

theorem buildMachine_of_legal {c : Config} (h : c.Legal) : buildMachine c = .next (State.init c) := if_pos h

/-- Settles O42: the build of a legal configuration is `State.init`. -/
theorem buildLeavesTheResetValues : Obligations.BuildLeavesTheResetValues := by
  refine ⟨fun c hc => ⟨State.init c, buildMachine_of_legal hc, rfl, rfl, rfl, rfl, rfl, readReg_of_resetRegs rfl,
    fun a => rfl, fun l hl => ?_, List.length_replicate, rfl, getStats_of_no_request rfl rfl rfl rfl rfl rfl, rfl, rfl,
    rfl⟩, buildMachine_of_legal (by decide)⟩
  rw [List.eq_of_mem_replicate hl]
  rfl

/-- A number is a power of two exactly when its logarithm names the power. -/
theorem eq_two_pow_log2_iff (n : Nat) : n = 2 ^ n.log2 ↔ ∃ k, n = 2 ^ k := by
  refine ⟨fun h => ⟨_, h⟩, ?_⟩
  rintro ⟨k, rfl⟩
  rw [Nat.log2_two_pow]

/-- Settles O43: the build tests `Config.Legal`, which names powers of two by their logarithm. -/
theorem illegalConfigurationBuildsNothing : Obligations.IllegalConfigurationBuildsNothing := by
  intro c
  have hbuild : buildMachine c = .fault .configurationError ↔ ¬c.Legal := by
    unfold buildMachine
    split
    · next hlegal => exact iff_of_false nofun fun h => h hlegal
    · next hillegal => exact iff_of_true rfl hillegal
  rw [hbuild, ← eq_two_pow_log2_iff c.lineSize, ← eq_two_pow_log2_iff c.cacheSize]
  simp only [Config.Legal, Config.GeometryLegal, Config.MapLegal, and_assoc]

/-- Settles O44: both operations are record updates, and Clear ends in `CacheInvalidateAll`. -/
theorem resettingOperationsAreIndependent : Obligations.ResettingOperationsAreIndependent :=
  ⟨fun _ => ⟨readReg_of_resetRegs rfl, rfl, rfl, rfl, rfl, rfl⟩,
    fun _ => ⟨fun _ => rfl, fun _ => valid_of_mem_cacheInvalidateAll,
      getStats_of_no_request rfl rfl rfl rfl rfl rfl, rfl⟩⟩

/-! ### LoadProgram -/

/-- Every byte after a run of bytes is written: the byte of the run at its address, the old one elsewhere. -/
theorem read_writeBytes (bytes : List Byte) {m : Memory} {base : Nat} (hwf : Memory.wf m = true) (x : Nat) :
    Memory.read (writeBytes m base bytes) x =
      if base ≤ x ∧ x < base + bytes.length then bytes.getD (x - base) 0#8 else Memory.read m x := by
  induction bytes generalizing m base with
  | nil => rw [writeBytes, List.length_nil, if_neg (by omega)]
  | cons b bs ih =>
    rw [writeBytes, ih (Memory.wf_write m base b hwf), Memory.read_write m base x b 0 hwf, List.length_cons]
    by_cases hx : x = base
    · rw [if_neg (by omega), if_pos hx, if_pos (by omega), hx, Nat.sub_self, List.getD_cons_zero]
    · rw [if_neg hx]
      by_cases hin : base + 1 ≤ x ∧ x < base + 1 + bs.length
      · rw [if_pos hin, if_pos (by omega), show x - base = x - (base + 1) + 1 by omega, List.getD_cons_succ]
      · rw [if_neg hin, if_neg (by omega)]

/-- Settles O45: `read_writeBytes` inside and outside the run. -/
theorem loadProgramPlacesTheBytes : Obligations.LoadProgramPlacesTheBytes := by
  intro bytes base s hwf
  refine ⟨fun hfits => ?_, fun hlong => ?_⟩
  · refine ⟨_, if_neg (by omega), fun k hk => ?_, fun x hx => ?_, fun _ => valid_of_mem_cacheInvalidateAll, rfl⟩
    · refine (read_writeBytes bytes hwf _).trans ?_
      rw [if_pos (by omega), Nat.add_sub_cancel_left]
    · exact (read_writeBytes bytes hwf x).trans (if_neg (by omega))
  · have hload : loadProgram bytes base s = .error { kind := .addressError, addr := base } := if_pos hlong
    exact ⟨⟨_, hload⟩, by rw [applyHostOp, hload]; rfl⟩

/-! ### LoadWords -/

/-- A byte outside every written word keeps its value. -/
theorem read_writeWords_outside (ws : List (Word × Word)) {m : Memory} (hwf : Memory.wf m = true) {x : Nat}
    (hx : ∀ p ∈ ws, x < p.1.toNat ∨ p.1.toNat + 4 ≤ x) : Memory.read (writeWords m ws) x = Memory.read m x := by
  induction ws generalizing m with
  | nil => rfl
  | cons p ws ih =>
    obtain ⟨hp, hws⟩ := List.forall_mem_cons.mp hx
    rw [writeWords, ih (wf_backWrite m p.1.toNat p.2 hwf) hws, read_backWrite_outside _ _ _ _ hwf hp]

/-- A word outside every written word keeps its value. -/
theorem backRead_writeWords_outside (ws : List (Word × Word)) {m : Memory} (hwf : Memory.wf m = true) {a : Nat}
    (ha : ∀ p ∈ ws, a + 4 ≤ p.1.toNat ∨ p.1.toNat + 4 ≤ a) : backRead (writeWords m ws) a = backRead m a := by
  have hbyte : ∀ k < 4, Memory.read (writeWords m ws) (a + k) = Memory.read m (a + k) := fun k hk =>
    read_writeWords_outside ws hwf fun p hp => by have := ha p hp; omega
  have hfirst := hbyte 0 (by decide)
  rw [Nat.add_zero] at hfirst
  unfold backRead
  rw [hfirst, hbyte 1 (by decide), hbyte 2 (by decide), hbyte 3 (by decide)]

/-- Every word of a map with distinct aligned addresses is readable at its address (20_memory.md R91). -/
theorem backRead_writeWords {ws : List (Word × Word)} {m : Memory} (hwf : Memory.wf m = true)
    (haligned : ∀ p ∈ ws, p.1.toNat % 4 = 0) (hdistinct : (ws.map Prod.fst).Nodup) :
    ∀ p ∈ ws, backRead (writeWords m ws) p.1.toNat = p.2 := by
  induction ws generalizing m with
  | nil => nofun
  | cons p ws ih =>
    obtain ⟨hp, hws⟩ := List.forall_mem_cons.mp haligned
    rw [List.map_cons, List.nodup_cons] at hdistinct
    obtain ⟨hnotin, hdistinct⟩ := hdistinct
    have hwf' := wf_backWrite m p.1.toNat p.2 hwf
    refine List.forall_mem_cons.mpr ⟨?_, ih hwf' hws hdistinct⟩
    rw [writeWords, backRead_writeWords_outside ws hwf', backRead_backWrite _ _ _ hwf]
    intro q hq
    have hq4 := hws q hq
    have hne : q.1.toNat ≠ p.1.toNat := fun h => hnotin (BitVec.eq_of_toNat_eq h ▸ List.mem_map_of_mem hq)
    omega

/-- `LoadWords` rejects no address exactly when all lie inside the memory. -/
theorem firstRejected_eq_none_iff (c : Config) (ws : List (Word × Word)) :
    firstRejected c ws = none ↔ ∀ p ∈ ws, WordInside c p.1 := by
  induction ws with
  | nil => simp [firstRejected]
  | cons p ws ih =>
    rw [firstRejected, List.forall_mem_cons]
    split
    · next hp => rw [ih, and_iff_right hp]
    · next hp => exact iff_of_false nofun fun h => hp h.1

/-- Settles O46: the words are disjoint, being aligned and at distinct addresses. -/
theorem loadWordsStoresTheMap : Obligations.LoadWordsStoresTheMap := by
  intro ws s hwf
  refine ⟨fun hinside hdistinct => ?_, fun hbad => ?_⟩
  · have hload : loadWords ws s = .ok (cacheInvalidateAll { s with mem := writeWords s.mem ws }) := by
      rw [loadWords, (firstRejected_eq_none_iff s.cfg ws).mpr hinside]
    exact ⟨_, hload, backRead_writeWords hwf (fun p hp => (hinside p hp).1) hdistinct,
      fun x hx => read_writeWords_outside ws hwf hx, fun _ => valid_of_mem_cacheInvalidateAll, rfl⟩
  · obtain ⟨p, hp, hp'⟩ := hbad
    obtain ⟨a, ha⟩ := Option.ne_none_iff_exists'.mp fun h => hp' ((firstRejected_eq_none_iff s.cfg ws).mp h p hp)
    have hload : loadWords ws s = .error { kind := .addressError, addr := a } := by rw [loadWords, ha]
    exact ⟨⟨_, hload⟩, by rw [applyHostOp, hload]; rfl⟩

/-! ### Counters only grow -/

/-- The configuration is kept, no counter is smaller, and the output sequence is extended at its end or kept (10_state.md
R36, R39, R40, R45). -/
structure Grows (s t : State) : Prop where
  cfg : t.cfg = s.cfg
  hits : s.hits ≤ t.hits
  misses : s.misses ≤ t.misses
  memReads : s.memReads ≤ t.memReads
  memWrites : s.memWrites ≤ t.memWrites
  ioReads : s.ioReads ≤ t.ioReads
  ioWrites : s.ioWrites ≤ t.ioWrites
  outLog : s.outLog <+: t.outLog

theorem Grows.trans {s t u : State} (h : Grows s t) (h' : Grows t u) : Grows s u where
  cfg := h'.cfg.trans h.cfg
  hits := h.hits.trans h'.hits
  misses := h.misses.trans h'.misses
  memReads := h.memReads.trans h'.memReads
  memWrites := h.memWrites.trans h'.memWrites
  ioReads := h.ioReads.trans h'.ioReads
  ioWrites := h.ioWrites.trans h'.ioWrites
  outLog := h.outLog.trans h'.outLog

/-- An operation that keeps the configuration, the statistics and the output sequence. -/
theorem Grows.of_getStats {s t : State} (hcfg : t.cfg = s.cfg) (hstats : getStats t = getStats s)
    (hout : t.outLog = s.outLog) : Grows s t where
  cfg := hcfg
  hits := (congrArg Stats.hits hstats :).ge
  misses := (congrArg Stats.misses hstats :).ge
  memReads := (congrArg Stats.memReads hstats :).ge
  memWrites := (congrArg Stats.memWrites hstats :).ge
  ioReads := (congrArg Stats.ioReads hstats :).ge
  ioWrites := (congrArg Stats.ioWrites hstats :).ge
  outLog := hout ▸ List.prefix_rfl

theorem Grows.refl (s : State) : Grows s s := .of_getStats rfl rfl rfl

/-- The CPU's own operations touch no counter. -/
theorem SameBus.grows {s t : State} (h : SameBus s t) : Grows s t :=
  .of_getStats (congrArg State.cfg h :) (congrArg getStats h :) (congrArg State.outLog h :)

/-- A read through the cache counts up (20_memory.md R74). -/
theorem cacheRead_grows (a : Word) (s : State) : Grows s (cacheRead a s).2 := by
  unfold cacheRead
  split
  · exact .refl s
  split <;> constructor <;> simp

/-- A write through the cache counts up (20_memory.md R75). -/
theorem cacheWrite_grows (a v : Word) (s : State) : Grows s (cacheWrite a v s) := by
  unfold cacheWrite
  split
  · exact .of_getStats rfl rfl rfl
  split <;> constructor <;> simp

theorem memRead_grows {a v : Word} {s t : State} (h : memRead a s = .ok (v, t)) : Grows s t := by
  rcases memRead_ok h with ⟨-, -, rfl⟩ | ⟨r, -, -, rfl⟩
  · have hcount : Grows s (countMemRead s) := by constructor <;> simp
    exact hcount.trans (cacheRead_grows a _)
  · constructor <;> simp

theorem memWrite_grows {a v : Word} {s t : State} (h : memWrite a v s = .ok t) : Grows s t := by
  rcases memWrite_ok h with ⟨-, rfl⟩ | ⟨r, -, rfl⟩
  · have hcount : Grows s (countMemWrite s) := by constructor <;> simp
    exact hcount.trans (cacheWrite_grows a v _)
  · have hcount : Grows s (countIoWrite s) := by constructor <;> simp
    cases r <;> exact { hcount with outLog := by simp [ioWrite] }

theorem fetch_grows {w : Word} {s t : State} (h : fetch s = .ok (w, t)) : Grows s t := by
  obtain ⟨-, -, hr⟩ := fetch_ok h
  exact memRead_grows hr

/-- The meaning of an instruction decreases no counter. -/
theorem exec_grows {i : Instr} {s t : State} (h : exec i s = .next t) : Grows s t := by
  cases i with
  | lw rs rt imm =>
    rcases exec_lw_cases h with ⟨v, u, hr, rfl⟩ | ⟨e, -, rfl⟩
    · exact (memRead_grows hr).trans ((writeReg_sameBus rt v u).trans (pcUpdate_sameBus _)).grows
    · exact .of_getStats rfl rfl rfl
  | sw rs rt imm =>
    rcases exec_sw_cases h with ⟨u, hw, rfl⟩ | ⟨e, -, rfl⟩
    · exact (memWrite_grows hw).trans (pcUpdate_sameBus u).grows
    · exact .of_getStats rfl rfl rfl
  | _ => exact (exec_sameBus (by simp) h).grows

/-- A step decreases no counter, from every state. -/
theorem step_grows {s t : State} (h : step s = .next t) : Grows s t := by
  rcases step_cases s with ⟨-, hstep⟩ | ⟨-, e, -, hstep⟩ | ⟨-, w, f, d, hf, -, hstep⟩ | ⟨-, w, f, i, hf, -, hstep⟩
  · cases h.symm.trans hstep
    exact .refl s
  · cases h.symm.trans hstep
    exact .of_getStats rfl rfl rfl
  · cases h.symm.trans hstep
    exact (fetch_grows hf).trans (.of_getStats rfl rfl rfl)
  · have hbegin : Grows f (beginExecute f) := .of_getStats rfl rfl rfl
    exact (fetch_grows hf).trans (hbegin.trans (exec_grows (hstep.symm.trans h)))

/-- No command of the host but Clear decreases a counter. -/
theorem applyHostOp_grows {op : HostOp} (hclear : op ≠ .clear) (s : State) : Grows s (applyHostOp op s) := by
  cases op with
  | clear => exact absurd rfl hclear
  | step => exact step_grows (step_next s)
  | memRead a =>
    simp only [applyHostOp]
    cases h : memRead a s with
    | error e => exact .refl s
    | ok p => exact memRead_grows h
  | memWrite a v =>
    simp only [applyHostOp]
    cases h : memWrite a v s with
    | error e => exact .refl s
    | ok t => exact memWrite_grows h
  | loadProgram bytes base =>
    simp only [applyHostOp, loadProgram]
    split <;> exact .of_getStats rfl rfl rfl
  | loadWords ws =>
    simp only [applyHostOp, loadWords]
    split <;> exact .of_getStats rfl rfl rfl
  | cacheToggle e => cases e <;> exact .of_getStats rfl rfl rfl
  | cacheInvalidate | cacheInvalidateAll | cpuReset | setInput => exact .of_getStats rfl rfl rfl

/-- Settles O60: Clear keeps the configuration too. -/
theorem countersOnlyGrow : Obligations.CountersOnlyGrow := by
  intro op s
  by_cases hclear : op = .clear
  · subst hclear
    exact ⟨rfl, fun h => absurd rfl h⟩
  · obtain ⟨hcfg, hhits, hmisses, hmemReads, hmemWrites, hioReads, hioWrites, new, hnew⟩ := applyHostOp_grows hclear s
    exact ⟨hcfg, fun _ => ⟨hhits, hmisses, hmemReads, hmemWrites, hioReads, hioWrites, new, hnew.symm⟩⟩

/-! ### The hit rate -/

/-- After some access the hit rate is the exact ratio (20_memory.md R79). -/
theorem hitRate_mul_accesses {s : State} (h : s.hits + s.misses ≠ 0) :
    hitRate s * ((s.hits : Rat) + (s.misses : Rat)) = (s.hits : Rat) := by
  have hne : ((s.hits : Rat) + (s.misses : Rat)) ≠ 0 := by exact_mod_cast h
  rw [hitRate, if_neg h, Nat.cast_add, div_mul_cancel₀ _ hne]

/-- Settles O49: the counts of one access, and `applyHostOp_grows` for the commands. -/
theorem hitRateIsTheExactRatio : Obligations.HitRateIsTheExactRatio := by
  intro s
  refine ⟨hitRate_of_no_access, hitRate_mul_accesses,
    fun a v hen => ⟨(cacheRead_counts a s).1 hen, (cacheWrite_counts a v s).1 hen⟩, fun a v hdis => ?_,
    fun a e => ⟨rfl, rfl, rfl, rfl, ?_⟩, rfl, rfl,
    fun op hclear => ⟨(applyHostOp_grows hclear s).hits, (applyHostOp_grows hclear s).misses⟩⟩
  · rw [(cacheRead_counts a s).2 hdis, (cacheWrite_counts a v s).2 hdis]
    exact ⟨rfl, rfl, rfl, rfl⟩
  · cases e <;> exact ⟨rfl, rfl⟩

end Sys2Proof.Machine
end
